-- ==== Sys2Proof/Word.lean ====
section
/-!
DEFINITION. The plain data of the block: bytes, spans, the two operation ports, a sample, and one
transaction as a port presents it (spec/00_scope.md R9, R10, R11; spec/10_state.md R30;
spec/30_encoding.md R70, R71).
-/

namespace Sys2Proof

/-- A byte is 8 bits (R11). -/
abbrev Byte := BitVec 8

/-- A span is a finite byte sequence of any length, the empty one included (R9, R11, R75). -/
abbrev Span := List Byte

/-- The two operation ports (R10): `M` of the main-loop agent, `P` of the producer. -/
inductive Port where
  | M
  | P
deriving DecidableEq, Repr

/-- One element of the ring (R30): four 16-bit channels and a millisecond timestamp. -/
structure SampleEntry where
  timestamp : BitVec 32
  clear : BitVec 16
  red : BitVec 16
  green : BitVec 16
  blue : BitVec 16
deriving DecidableEq, Repr

/-- One transaction as an agent presents it (R70): the operation code, the operand group of the
fixed-width formats in the low bits of `operand` (96 bits, the widest of them), and the span of
format S. The block looks only at the part its format has (log 1, DESIGN CHOICE). -/
structure Request where
  op : Byte
  operand : BitVec 96
  span : Span
deriving DecidableEq, Repr

end Sys2Proof
end

