-- ==== Sys2Proof/Syntax.lean ====
section
/-!
DEFINITION. The fifteen operations of the block (spec/30_encoding.md R72; spec/opcode_table.json), one
constructor per row, with the operands of their formats (R71). There are no others.
-/

namespace Sys2Proof

/-- An operation with its operands. The docstring of each constructor names its rule. -/
inductive Instr where
  /-- CRC.STEP acc, b (R101). -/
  | crcStep (acc : BitVec 16) (b : Byte)
  /-- CRC.SPAN s (R103). -/
  | crcSpan (data : Span)
  /-- HEX.ENCB b (R122). -/
  | hexEncb (b : Byte)
  /-- HEX.DECP c_hi, c_lo (R123). -/
  | hexDecp (cHi cLo : Byte)
  /-- HEX.ENC s (R125). -/
  | hexEnc (data : Span)
  /-- HEX.DEC t (R127). -/
  | hexDec (text : Span)
  /-- FSP.PUSH b (R140). -/
  | fspPush (b : Byte)
  /-- FSP.STAT (R152). -/
  | fspStat
  /-- FSP.RST (R153). -/
  | fspRst
  /-- SRB.PUT e (R171). -/
  | srbPut (e : SampleEntry)
  /-- SRB.LATEST (R173). -/
  | srbLatest
  /-- SRB.BYOFS offset_ms, now, interval_ms (R175). -/
  | srbByofs (offsetMs now intervalMs : BitVec 32)
  /-- SRB.COUNT (R180). -/
  | srbCount
  /-- SRB.FULL (R181). -/
  | srbFull
  /-- SRB.CLR (R182). -/
  | srbClr
deriving DecidableEq, Repr

end Sys2Proof
end

