-- ==== Sys2Proof/WellFormed.lean ====
section
/-!
DEFINITION. When an operation may be issued on a port, and when a transaction carries exactly the
operand group of a format. Every bit pattern and every finite span is a legal operand
(spec/30_encoding.md R75), so an `Instr` has no ill-formed operands: what can be wrong is the port
(R73) or the shape of a transaction (R71).
-/

namespace Sys2Proof

/-- The port an operation belongs to: SRB.PUT to port P, every other one to port M (R72, R73). -/
def Instr.port : Instr → Port
  | .crcStep _ _ => .M
  | .crcSpan _ => .M
  | .hexEncb _ => .M
  | .hexDecp _ _ => .M
  | .hexEnc _ => .M
  | .hexDec _ => .M
  | .fspPush _ => .M
  | .fspStat => .M
  | .fspRst => .M
  | .srbPut _ => .P
  | .srbLatest => .M
  | .srbByofs _ _ _ => .M
  | .srbCount => .M
  | .srbFull => .M
  | .srbClr => .M

/-- Port rights: the operation may be issued on port `p` (R73, R239). -/
def Instr.issuableOn (p : Port) (i : Instr) : Bool := i.port == p

/-- The operand formats (R71). -/
inductive OperandFormat where
  | z
  | b
  | a
  | p
  | s
  | e
  | q
deriving DecidableEq, Repr

/-- The width in bytes of a format's fixed operand group (R71); format S has none, its span is carried
beside it. -/
def OperandFormat.bytes : OperandFormat → Nat
  | .z => 0
  | .b => 1
  | .a => 3
  | .p => 2
  | .s => 0
  | .e => 12
  | .q => 12

/-- The operand bits above the format's group are zero. -/
def Request.operandFits (f : OperandFormat) (r : Request) : Bool :=
  decide (r.operand.toNat < 2 ^ (8 * f.bytes))

/-- Only format S carries a span. -/
def Request.spanFits (f : OperandFormat) (r : Request) : Bool :=
  match f with
  | .s => true
  | _ => r.span.isEmpty

/-- The transaction carries the operand group of format `f` and nothing else (R70, R71). -/
def Request.fits (f : OperandFormat) (r : Request) : Bool := r.operandFits f && r.spanFits f

end Sys2Proof
end

