-- ==== Sys2Proof/Decode.lean ====
section
/-!
DEFINITION. Decoding and encoding of operations (spec/30_encoding.md R70 to R74, R88, R89): from a
transaction on a port, and from the bytes a transaction is written down as (spec/95_test_vectors.md
Part 3). Decoding is total and rejects by name.
-/

namespace Sys2Proof

/-! ## Packings of the operand groups -/

/-- A SampleEntry in 96 bits, timestamp, clear, red, green, blue from the top (R88). -/
def packEntry (e : SampleEntry) : BitVec 96 :=
  e.timestamp ++ e.clear ++ e.red ++ e.green ++ e.blue

/-- The SampleEntry of 96 bits (R88). -/
def unpackEntry (v : BitVec 96) : SampleEntry where
  timestamp := v.extractLsb' 64 32
  clear := v.extractLsb' 48 16
  red := v.extractLsb' 32 16
  green := v.extractLsb' 16 16
  blue := v.extractLsb' 0 16

/-- The operand group of format Q: offset_ms, now, interval_ms from the top (R89). -/
def packQuery (offsetMs now intervalMs : BitVec 32) : BitVec 96 :=
  offsetMs ++ now ++ intervalMs

/-! ## The opcode map -/

/-- The operand format of an operation code; none for a reserved code (R72, R74). -/
def formatOf (op : Byte) : Option OperandFormat :=
  match op with
  | 0x01#8 => some .a
  | 0x02#8 => some .s
  | 0x10#8 => some .b
  | 0x11#8 => some .p
  | 0x12#8 => some .s
  | 0x13#8 => some .s
  | 0x20#8 => some .b
  | 0x21#8 => some .z
  | 0x2F#8 => some .z
  | 0x30#8 => some .e
  | 0x31#8 => some .z
  | 0x32#8 => some .q
  | 0x33#8 => some .z
  | 0x34#8 => some .z
  | 0x3F#8 => some .z
  | _ => none

/-- The operation a transaction asks for, its operands taken from the group of its format (R71, R72);
none for a reserved code. -/
def instrOf (r : Request) : Option Instr :=
  match r.op with
  | 0x01#8 => some (.crcStep (r.operand.extractLsb' 8 16) (r.operand.extractLsb' 0 8))
  | 0x02#8 => some (.crcSpan r.span)
  | 0x10#8 => some (.hexEncb (r.operand.extractLsb' 0 8))
  | 0x11#8 => some (.hexDecp (r.operand.extractLsb' 8 8) (r.operand.extractLsb' 0 8))
  | 0x12#8 => some (.hexEnc r.span)
  | 0x13#8 => some (.hexDec r.span)
  | 0x20#8 => some (.fspPush (r.operand.extractLsb' 0 8))
  | 0x21#8 => some .fspStat
  | 0x2F#8 => some .fspRst
  | 0x30#8 => some (.srbPut (unpackEntry r.operand))
  | 0x31#8 => some .srbLatest
  | 0x32#8 =>
    some (.srbByofs (r.operand.extractLsb' 64 32) (r.operand.extractLsb' 32 32)
      (r.operand.extractLsb' 0 32))
  | 0x33#8 => some .srbCount
  | 0x34#8 => some .srbFull
  | 0x3F#8 => some .srbClr
  | _ => none

/-- Why bytes or a transaction are no operation. The first two are what the block answers ILLEGAL_OP
to (R73, R74); the others are no transaction at all, since a port presents exactly the operand group
of the code's format (R70). -/
inductive DecodeError where
  | reservedCode (op : Byte)
  | wrongPort (op : Byte)
  | noCode
  | shortOperand
  | longOperand
deriving DecidableEq, Repr

/-- What decoding gives: an operation, or the name of what is wrong. -/
inductive Decoded where
  | instr (i : Instr)
  | rejected (e : DecodeError)
deriving DecidableEq, Repr

/-- Decode a transaction presented on port `p`: the code must be in the table and listed for that port
(R72, R73, R74). -/
def decode (p : Port) (r : Request) : Decoded :=
  match instrOf r with
  | none => .rejected (.reservedCode r.op)
  | some i => if i.issuableOn p then .instr i else .rejected (.wrongPort r.op)

/-! ## The encoder -/

/-- The operation code (R72). -/
def Instr.code : Instr → Byte
  | .crcStep _ _ => 0x01#8
  | .crcSpan _ => 0x02#8
  | .hexEncb _ => 0x10#8
  | .hexDecp _ _ => 0x11#8
  | .hexEnc _ => 0x12#8
  | .hexDec _ => 0x13#8
  | .fspPush _ => 0x20#8
  | .fspStat => 0x21#8
  | .fspRst => 0x2F#8
  | .srbPut _ => 0x30#8
  | .srbLatest => 0x31#8
  | .srbByofs _ _ _ => 0x32#8
  | .srbCount => 0x33#8
  | .srbFull => 0x34#8
  | .srbClr => 0x3F#8

/-- The operand format of an operation (R71, R72). -/
def Instr.format : Instr → OperandFormat
  | .crcStep _ _ => .a
  | .crcSpan _ => .s
  | .hexEncb _ => .b
  | .hexDecp _ _ => .p
  | .hexEnc _ => .s
  | .hexDec _ => .s
  | .fspPush _ => .b
  | .fspStat => .z
  | .fspRst => .z
  | .srbPut _ => .e
  | .srbLatest => .z
  | .srbByofs _ _ _ => .q
  | .srbCount => .z
  | .srbFull => .z
  | .srbClr => .z

/-- The fixed operand group of an operation in the low bits of the operand lines, the lines above it
zero (R71, R88, R89). -/
def Instr.operand : Instr → BitVec 96
  | .crcStep acc b => (acc ++ b).setWidth 96
  | .crcSpan _ => 0
  | .hexEncb b => b.setWidth 96
  | .hexDecp cHi cLo => (cHi ++ cLo).setWidth 96
  | .hexEnc _ => 0
  | .hexDec _ => 0
  | .fspPush b => b.setWidth 96
  | .fspStat => 0
  | .fspRst => 0
  | .srbPut e => packEntry e
  | .srbLatest => 0
  | .srbByofs offsetMs now intervalMs => packQuery offsetMs now intervalMs
  | .srbCount => 0
  | .srbFull => 0
  | .srbClr => 0

/-- The span operand of an operation of format S; empty for the others (R71). -/
def Instr.span : Instr → Span
  | .crcStep _ _ => []
  | .crcSpan data => data
  | .hexEncb _ => []
  | .hexDecp _ _ => []
  | .hexEnc data => data
  | .hexDec text => text
  | .fspPush _ => []
  | .fspStat => []
  | .fspRst => []
  | .srbPut _ => []
  | .srbLatest => []
  | .srbByofs _ _ _ => []
  | .srbCount => []
  | .srbFull => []
  | .srbClr => []

/-- The transaction that asks for an operation (R70, R71, R72). -/
def encode (i : Instr) : Request where
  op := i.code
  operand := i.operand
  span := i.span

/-- The name of an operation (R72, R78). -/
def Instr.mnemonic : Instr → String
  | .crcStep _ _ => "CRC.STEP"
  | .crcSpan _ => "CRC.SPAN"
  | .hexEncb _ => "HEX.ENCB"
  | .hexDecp _ _ => "HEX.DECP"
  | .hexEnc _ => "HEX.ENC"
  | .hexDec _ => "HEX.DEC"
  | .fspPush _ => "FSP.PUSH"
  | .fspStat => "FSP.STAT"
  | .fspRst => "FSP.RST"
  | .srbPut _ => "SRB.PUT"
  | .srbLatest => "SRB.LATEST"
  | .srbByofs _ _ _ => "SRB.BYOFS"
  | .srbCount => "SRB.COUNT"
  | .srbFull => "SRB.FULL"
  | .srbClr => "SRB.CLR"

/-! ## Transactions written down as bytes

spec/95_test_vectors.md Part 3 writes a transaction as its code byte followed by the operand group, the
most significant field first, a span as its bytes in index order. It is a way of writing, not a
format the block parses (log 18). -/

/-- The number of a byte list, its first byte the most significant. -/
def beNat : List Byte → Nat
  | [] => 0
  | b :: bs => b.toNat * 256 ^ bs.length + beNat bs

/-- The low `n` bytes of a number, the most significant first. -/
def beBytes : Nat → Nat → List Byte
  | 0, _ => []
  | n + 1, v => BitVec.ofNat 8 (v / 256 ^ n) :: beBytes n v

/-- The bytes an operation is written down as. -/
def written (i : Instr) : List Byte :=
  i.code :: (beBytes i.format.bytes i.operand.toNat ++ i.span)

/-- The transaction that bytes write down. -/
def requestOfBytes (bs : List Byte) : Except DecodeError Request :=
  match bs with
  | [] => .error .noCode
  | op :: rest =>
    match formatOf op with
    | none => .error (.reservedCode op)
    | some .s => .ok ⟨op, 0, rest⟩
    | some f =>
      if rest.length < f.bytes then .error .shortOperand
      else if f.bytes < rest.length then .error .longOperand
      else .ok ⟨op, BitVec.ofNat 96 (beNat rest), []⟩

/-- Decode the bytes of a transaction on port `p`: total on any bytes, rejecting by name. -/
def decodeBytes (p : Port) (bs : List Byte) : Decoded :=
  match requestOfBytes bs with
  | .error e => .rejected e
  | .ok r => decode p r

/-! ## The opcode table's words -/

/-- The port a code is presented on when the table's row is asked for: P for SRB.PUT, else M (R73). -/
def portOfCode (op : Byte) : Port :=
  match op with
  | 0x30#8 => .P
  | _ => .M

/-- The bytes of a table word of `nbits` bits, the first byte in its low bits, followed by zero bytes
up to the operand group of the code's format. -/
def tableBytes (nbits w : Nat) : List Byte :=
  match (List.range (nbits / 8)).map (fun k => BitVec.ofNat 8 (w / 256 ^ k)) with
  | [] => []
  | op :: rest =>
    let width := match formatOf op with
      | none => 0
      | some f => f.bytes
    op :: (rest ++ List.replicate (width - rest.length) 0#8)

/-- The transaction of a table word: the operand group is zero where the word has no bits for it, and
the span is empty. A reserved code has no operand group. -/
def tableRequest (nbits w : Nat) : Request :=
  match requestOfBytes (tableBytes nbits w) with
  | .ok r => r
  | .error _ => ⟨BitVec.ofNat 8 w, 0, []⟩

/-- The operation the decoder reads from a table word, on the port its code belongs to. -/
def decodeTableWord (nbits w : Nat) : Option Instr :=
  match decodeBytes (portOfCode (BitVec.ofNat 8 w)) (tableBytes nbits w) with
  | .instr i => some i
  | .rejected _ => none

end Sys2Proof
end

