-- ==== Sys2Proof/Config.lean ====
section
/-!
DEFINITION. What an implementation of the block fixes (the type of its parameters,
spec/00_scope.md R7, R8; spec/93_implementation_defined.md U3, U6, U8) and the free values: what the
spec leaves open, as constants without a body. The values this block takes for its parameters stand in
Machine/Params.lean.
-/

namespace Sys2Proof

/-- What a scan that finds no entry answers in the reject-when-full variant (R187). The spec leaves it
open, so every statement about the variant quantifies over it. -/
inductive SrbExhaust where
  | empty
  | oldest
deriving DecidableEq, Repr

/-- What a put does to a full ring: the policy this spec fixes, or the variant it describes, which alone
has the open parameter SRB_EXHAUST (R7, R186, R187). -/
inductive SrbPolicy where
  | overwriteOldest
  | rejectWhenFull (exhaust : SrbExhaust)
deriving DecidableEq, Repr

/-- The parameters a model takes as configuration: MAX_FRAME (R8, U3), CRC_REFLECT (R108, U6) and
SRB_POLICY (R7, U8). -/
structure Params where
  maxFrame : Nat
  crcReflect : Bool
  srbPolicy : SrbPolicy
deriving DecidableEq, Repr

/-- The values of MAX_FRAME the rules are given for: at least 13 (R8), and small enough for the nine
bits of FSP_POS (R9). -/
abbrev Params.legal (c : Params) : Prop := 13 ≤ c.maxFrame ∧ c.maxFrame ≤ 511

/-- The unspecified byte of CAP at an index nothing has written since reset (R37, U1). Free value:
log 7. -/
opaque Config.capInit : Nat → BitVec 8

/-- The unspecified slot of RING at an index nothing has written since reset, packed as R88 (R37, U2).
Free value: log 8. -/
opaque Config.ringInit : Nat → BitVec 96

/-- Which port the `n`-th undetermined choice between two waiting ports serves first, `true` for port P
(R60). Free value: log 3. -/
opaque Config.producerFirst : Nat → Bool

end Sys2Proof
end

