-- ==== Sys2Proof/Machine/State.lean ====
section
/-!
DEFINITION. The state of the block as plain data: the FSP record and the SRB record, which are all the
spec gives it (spec/10_state.md R20 to R38), and the two operation ports (spec/30_encoding.md R70, R76,
R77; spec/20_memory.md R58 to R60), with the state after reset (spec/70_reset_and_hazards.md R250).
-/

namespace Sys2Proof.Machine

/-- A storage space (spec/20_memory.md R50, R51): its written elements by index, in rising order. An
index that is not listed holds no value the model knows. -/
abbrev Memory (α : Type) := List (Nat × α)

/-- FSP_STATE, the four states of the parser (R24). -/
inductive FspState where
  | idle
  | header
  | data
  | crcTail
deriving DecidableEq, Repr

/-- The FSP's owned record (R25): FSP_STATE (R24), CAP (R26), FSP_POS (R27), FSP_DLEN (R28). -/
structure Fsp where
  state : FspState
  cap : List Host.Cell
  pos : BitVec 9
  dlen : BitVec 9
deriving DecidableEq, Repr

/-- The SRB's record: RING (R31), SRB_HEAD (R32), SRB_COUNT (R33). -/
structure Srb where
  ring : List (Nat × SampleEntry)
  head : BitVec 10
  count : BitVec 10
deriving DecidableEq, Repr

/-- The status codes other than OK (spec/30_encoding.md R76). -/
inductive ErrorStatus where
  /-- Nothing stored, or the scan found no entry (R173, R179). -/
  | empty
  /-- The offset is zero or beyond the range (R176). -/
  | outOfRange
  /-- Hex text of odd length (R126). -/
  | oddLength
  /-- A character outside the hex alphabet (R123, R126). -/
  | invalidChar
  /-- A put to a full ring in the reject-when-full variant (R186). -/
  | full
  /-- A reserved code or a code on the wrong port (R73, R74). -/
  | illegalOp
deriving DecidableEq, Repr

/-- The result group of an operation that answers OK (R77). -/
inductive ResultGroup where
  /-- FSP.RST, SRB.PUT, SRB.CLR: none. -/
  | none
  /-- CRC.STEP `acc_out[15:0]`, CRC.SPAN `crc[15:0]`. -/
  | checksum (v : BitVec 16)
  /-- HEX.ENCB `c_hi[7:0]`, `c_lo[7:0]`. -/
  | chars (cHi cLo : Byte)
  /-- HEX.DECP `b[7:0]`. -/
  | byte (b : Byte)
  /-- HEX.ENC and HEX.DEC. -/
  | span (bytes : Span)
  /-- FSP.PUSH `ready` and `frame`. -/
  | capture (ready : Bool) (frame : Span)
  /-- FSP.STAT, packed as R90. -/
  | fspStatus (r : BitVec 20)
  /-- SRB.LATEST and SRB.BYOFS, packed as R88. -/
  | entry (e : BitVec 96)
  /-- SRB.COUNT `count[9:0]`. -/
  | count (n : BitVec 10)
  /-- SRB.FULL `full`. -/
  | full (isFull : Bool)
deriving DecidableEq, Repr

/-- What a port answers: OK with the operation's result group, or an error status with no result
(R76, R77, U13). -/
inductive Response where
  | ok (group : ResultGroup)
  | error (status : ErrorStatus)
deriving DecidableEq, Repr

/-- The whole machine. `fsp` and `srb` are the block's state (R37); the rest is the two operation ports
as the model holds them (log 2, 3, 5): what each port's agent will issue, the head being presented; the
last answer on each port; and what decides between two waiting ports. -/
structure State where
  fsp : Fsp
  srb : Srb
  portM : List Request
  portP : List Request
  respM : Option Response
  respP : Option Response
  turns : List Port
  seq : Nat
deriving DecidableEq, Repr

/-- Why the machine can stop. The block itself never faults (spec/60_exceptions.md R244, R246): both
names are an access to an element the spec says does not exist, and no state that meets the invariant
`State.Inv` reaches one. -/
inductive Fault where
  /-- FSP.PUSH would store at CAP[index] with index at or above MAX_FRAME, which R150 rules out: only
  in a state outside R29 (Header with FSP_POS at or above MAX_FRAME). Safe. -/
  | capIndex (index : Nat)
  /-- SRB.PUT would store at RING[index] with index at or above 600, which R32 rules out: only in a
  state with SRB_HEAD above 599. Safe. -/
  | ringIndex (index : Nat)
deriving DecidableEq, Repr

/-- Why an operation has no meaning in the model. -/
inductive Refusal where
  /-- An operation of the table with no meaning yet, raised by its arm of `exec`; every operation has
  its meaning, so none raises it. Safe. -/
  | notModelled (mnemonic : String)
deriving DecidableEq, Repr

/-- The FSP after reset (R37, R250): Idle, nothing captured; the contents of CAP are unspecified. -/
def Fsp.reset : Fsp where
  state := .idle
  cap := []
  pos := 0
  dlen := 0

/-- The SRB after reset (R37, R250): nothing stored; the contents of RING are unspecified. -/
def Srb.reset : Srb where
  ring := []
  head := 0
  count := 0

/-- The machine right after reset (R37, R250), with no transaction issued and none answered
(log 2, 3, 5). -/
def State.reset : State where
  fsp := .reset
  srb := .reset
  portM := []
  portP := []
  respM := none
  respP := none
  turns := []
  seq := 0

end Sys2Proof.Machine
end

