-- ==== Sys2Proof/Machine/Ops.lean ====
section
/-!
DEFINITION. The named operations over the storage spaces (spec/20_memory.md R50, R51), over the two
operation ports (R58 to R60, spec/30_encoding.md R70), and the one way an operation ends in an error
(spec/00_scope.md R12 `raise`, spec/60_exceptions.md R230). The block has no traps: `State.raise` is
all there is of taking an exception, and there is no return from one (R238).
-/

namespace Sys2Proof.Machine

/-! ## Storage spaces -/

/-- The element at an index, if one has been written there. -/
def Memory.get {α : Type} : Memory α → Nat → Option α
  | [], _ => none
  | (j, v) :: m, i => if i = j then some v else Memory.get m i

/-- Write one element, keeping the indexes rising and without repeats. -/
def Memory.set {α : Type} : Memory α → Nat → α → Memory α
  | [], i, v => [(i, v)]
  | (j, w) :: m, i, v =>
    if i < j then (i, v) :: (j, w) :: m
    else if i = j then (i, v) :: m
    else (j, w) :: Memory.set m i v

/-- Every index is at least `lo` and below `size`, and the indexes rise strictly. -/
def Memory.wfFrom {α : Type} (size : Nat) : Nat → Memory α → Bool
  | _, [] => true
  | lo, (j, _) :: m => decide (lo ≤ j) && decide (j < size) && Memory.wfFrom size (j + 1) m

/-- The canonical form of a space of `size` elements. An index that is not listed holds no value, so no
entry can equal what it reads as. -/
def Memory.wf {α : Type} (size : Nat) (m : Memory α) : Bool := Memory.wfFrom size 0 m

/-! ### CAP -/

/-- CAP[i] (R26): the byte last written there, else its unspecified content (U1, log 7). -/
def Fsp.byte (f : Fsp) (i : Nat) : Byte := (Memory.get f.cap i).getD (Config.capInit i)

/-- MemRead(CAP, 0, n): the bytes CAP[0] to CAP[n-1] (R12, R50). -/
def Fsp.captured (f : Fsp) (n : Nat) : Span := (List.range n).map f.byte

/-- Store `b` at CAP[FSP_POS] and advance FSP_POS (R27); CAP has elements below `maxFrame` only
(R150). -/
def Fsp.append (maxFrame : Nat) (b : Byte) (f : Fsp) : Except Fault Fsp :=
  if f.pos.toNat < maxFrame then
    .ok { f with
      cap := Memory.set f.cap f.pos.toNat b
      pos := BitVec.ofNat 9 (f.pos.toNat + 1) }
  else .error (.capIndex f.pos.toNat)

/-! ### RING -/

/-- The slot of the k-th newest entry: (SRB_HEAD + 600 - 1 - k) mod 600 (R34). -/
def ringSlot (head k : Nat) : Nat := (((head : Int) + 600 - 1 - (k : Int)) % 600).toNat

/-- RING[i] (R31): the entry last written there, else its unspecified content (U2, log 8). -/
def Srb.entry (r : Srb) (i : Nat) : SampleEntry :=
  (Memory.get r.ring i).getD (unpackEntry (Config.ringInit i))

/-- The entry at RING[slot of the k-th newest] (R34). -/
def Srb.newest (r : Srb) (k : Nat) : SampleEntry := r.entry (ringSlot r.head.toNat k)

/-! ## The operation ports -/

/-- Put the answer of an operation on a port (R70). -/
def State.answer (p : Port) (r : Response) (s : State) : State :=
  match p with
  | .M => { s with respM := some r }
  | .P => { s with respP := some r }

/-- End an operation with an error status: the status is answered, there is no result, and the block's
state stays as it is (R12, R230, R231, R238). -/
def State.raise (p : Port) (e : ErrorStatus) (s : State) : State := s.answer p (.error e)

/-- The last answer on a port. -/
def State.response (p : Port) (s : State) : Option Response :=
  match p with
  | .M => s.respM
  | .P => s.respP

/-- The transactions a port's agent will issue, the presented one first. -/
def State.queue (p : Port) (s : State) : List Request :=
  match p with
  | .M => s.portM
  | .P => s.portP

/-- Which of two waiting ports is served: as `turns` says, else free (R60, log 3). -/
def State.choice (s : State) : Port :=
  match s.turns with
  | p :: _ => p
  | [] => if Config.producerFirst s.seq then .P else .M

/-- The state once that choice has been used. -/
def State.spend (s : State) : State :=
  match s.turns with
  | _ :: rest => { s with turns := rest }
  | [] => { s with seq := s.seq + 1 }

/-- The port served next, its presented transaction, and the state with that transaction taken from the
port; none when neither port presents one. Each port is served in its own order (R59(b)); between two
waiting ports either can be first (R60). -/
def State.issue (s : State) : Option (Port × Request × State) :=
  match s.portM, s.portP with
  | [], [] => none
  | m :: ms, [] => some (.M, m, { s with portM := ms })
  | [], p :: ps => some (.P, p, { s with portP := ps })
  | m :: ms, p :: ps =>
    match s.choice with
    | .M => some (.M, m, { s.spend with portM := ms })
    | .P => some (.P, p, { s.spend with portP := ps })

/-- Present a transaction on a port so that it is the next one performed: before everything the port's
agent still has to issue, and, if the other port has one waiting, with the turn (log 19). -/
def State.present (p : Port) (r : Request) (s : State) : State :=
  match p with
  | .M =>
    let t := { s with portM := r :: s.portM }
    if s.portP.isEmpty then t else { t with turns := .M :: s.turns }
  | .P =>
    let t := { s with portP := r :: s.portP }
    if s.portM.isEmpty then t else { t with turns := .P :: s.turns }

end Sys2Proof.Machine
end

