-- ==== Sys2Proof/Machine/Flags.lean ====
section
/-!
DEFINITION. The status outputs. The block keeps no flag (spec/10_state.md R35): each output is a
function of the state at the time of the operation that returns it, or the status code of the
operation's own answer (spec/30_encoding.md R76).
-/

namespace Sys2Proof.Machine

/-- `full`: SRB_COUNT = 600 (R35, R181). -/
def Srb.isFull (r : Srb) : Bool := decide (r.count.toNat = 600)

/-- The empty condition: SRB_COUNT = 0 (R35). -/
def Srb.isEmpty (r : Srb) : Bool := decide (r.count.toNat = 0)

/-- The numbers of the error statuses (R76). -/
def ErrorStatus.code : ErrorStatus → BitVec 8
  | .empty => 0x01
  | .outOfRange => 0x02
  | .oddLength => 0x03
  | .invalidChar => 0x04
  | .full => 0x05
  | .illegalOp => 0xFF

/-- `status[7:0]` of an answer (R70, R76). -/
def Response.status : Response → BitVec 8
  | .ok _ => 0x00
  | .error e => e.code

/-- The answer of an operation that computes a value or raises an error status. -/
def Response.of {α : Type} (group : α → ResultGroup) : Except ErrorStatus α → Response
  | .ok v => .ok (group v)
  | .error e => .error e

end Sys2Proof.Machine
end

