-- ==== Sys2Proof/Machine/Params.lean ====
section
/-!
DEFINITION. The parameter values of this block (spec/00_scope.md R7, R8; spec/40_crc16.md R108).
-/

namespace Sys2Proof.Machine

/-- MAX_FRAME = 273 (R8, log 11), CRC_REFLECT = false (R108, log 10), SRB_POLICY = OverwriteOldest
(R7, log 15). -/
def blockParams : Params where
  maxFrame := 273
  crcReflect := false
  srbPolicy := .overwriteOldest

end Sys2Proof.Machine
end

