-- ==== Sys2Proof/Machine/Crc.lean ====
section
/-!
DEFINITION. The CRC unit (spec/40_crc16.md): CRC.STEP and CRC.SPAN. The unit has no state
(spec/10_state.md R22).
-/

namespace Sys2Proof.Machine

/-- One bit of the checksum (R100): shift left, and subtract the polynomial 0x1021 if a one fell out. -/
def crcBit (a : BitVec 16) : BitVec 16 :=
  if a.msb then (a <<< 1) ^^^ 0x1021#16 else a <<< 1

/-- One bit of the reflected form, CRC_REFLECT = true (U6, log 30): shift right, polynomial 0x8408. -/
def crcBitReflected (a : BitVec 16) : BitVec 16 :=
  if a.getLsbD 0 then (a >>> 1) ^^^ 0x8408#16 else a >>> 1

/-- Apply `f` `n` times. -/
def repeated {α : Type} (f : α → α) : Nat → α → α
  | 0, a => a
  | n + 1, a => repeated f n (f a)

/-- `crc_update(acc, b)` (R100): the byte is exclusive-ored into bits 15:8, then eight bits are
shifted out. With CRC_REFLECT it goes into bits 7:0 and the shifts are to the right (U6). -/
def crcUpdateWith (reflect : Bool) (acc : BitVec 16) (b : Byte) : BitVec 16 :=
  if reflect then repeated crcBitReflected 8 (acc ^^^ b.setWidth 16)
  else repeated crcBit 8 (acc ^^^ (b.setWidth 16 <<< 8))

/-- `crc_update` in this block's configuration (R100). -/
def crcUpdate (acc : BitVec 16) (b : Byte) : BitVec 16 :=
  crcUpdateWith blockParams.crcReflect acc b

/-- `crc16(s)` (R102): from 0x0000, the bytes in index order, no final exclusive-or. -/
def crc16 (data : Span) : BitVec 16 := data.foldl crcUpdate 0x0000#16

/-- CRC.STEP (R101). -/
def execCrcStep (acc : BitVec 16) (b : Byte) (s : State) : Host.Outcome State Fault Refusal :=
  .next (s.answer .M (.ok (.checksum (crcUpdate acc b))))

/-- CRC.SPAN (R103). -/
def execCrcSpan (data : Span) (s : State) : Host.Outcome State Fault Refusal :=
  .next (s.answer .M (.ok (.checksum (crc16 data))))

end Sys2Proof.Machine
end

