-- ==== Sys2Proof/Machine/Operands.lean ====
section
/-!
DEFINITION. Field encodings the operations read and write: the decimal fields of a header
(spec/30_encoding.md R82, R83), the 20-bit status of FSP.STAT (R90), and a state's code in it
(spec/10_state.md R24).
-/

namespace Sys2Proof.Machine

/-- The start marker, 0x26 (R7, R80). -/
def startMarker : Byte := 0x26#8

/-- The end marker, 0x2A (R7, R80). -/
def endMarker : Byte := 0x2A#8

/-- The value of an ASCII decimal digit; none for any other byte (R81, R82). -/
def digitValue (b : Byte) : Option Nat :=
  if 0x30 ≤ b.toNat ∧ b.toNat ≤ 0x39 then some (b.toNat - 0x30) else none

/-- The LEN field: three decimal digits, the most significant first, at most 256; none if it is
invalid (R82). -/
def lenField (d0 d1 d2 : Byte) : Option Nat :=
  match digitValue d0, digitValue d1, digitValue d2 with
  | some h, some t, some u =>
    if 100 * h + 10 * t + u ≤ 256 then some (100 * h + 10 * t + u) else none
  | _, _, _ => none

/-- FSP_STATE as two bits (R24). -/
def FspState.code : FspState → BitVec 2
  | .idle => 0
  | .header => 1
  | .data => 2
  | .crcTail => 3

/-- The result of FSP.STAT: FSP_STATE, FSP_POS, FSP_DLEN from the top (R90). -/
def packStatus (f : Fsp) : BitVec 20 := f.state.code ++ f.pos ++ f.dlen

end Sys2Proof.Machine
end

