-- ==== Sys2Proof/Machine/Fsp.lean ====
section
/-!
DEFINITION. The FSP unit, the frame streaming parser (spec/42_frame_parser.md): FSP.PUSH, FSP.STAT,
FSP.RST. Each piece of a push follows one rule and takes MAX_FRAME as an argument; it gives the new
record and, if the push hands one over, the captured span.
-/

namespace Sys2Proof.Machine

/-- The restart on a start marker, in any state (R141): the old capture is dropped, CAP[0] is the
marker. -/
def Fsp.restart (f : Fsp) : Fsp where
  state := .header
  cap := Memory.set f.cap 0 startMarker
  pos := 1
  dlen := 0

/-- The abort (R151), which is also what FSP.RST (R153) and the end of a hand-over (R148) do: Idle with
both cursors 0, CAP left as it is. -/
def Fsp.clear (f : Fsp) : Fsp := { f with state := .idle, pos := 0, dlen := 0 }

/-- The header is complete (R144): decode the length digits CAP[7..9] and go to Data, to CrcTail for a
length of zero, or abort. -/
def Fsp.completeHeader (f : Fsp) : Fsp :=
  match lenField (f.byte 7) (f.byte 8) (f.byte 9) with
  | none => f.clear
  | some len =>
    { f with
      state := if len = 0 then .crcTail else .data
      dlen := BitVec.ofNat 9 len }

/-- A byte other than the start marker in state Header (R143, R144). -/
def Fsp.pushHeader (maxFrame : Nat) (b : Byte) (f : Fsp) : Except Fault (Fsp × Option Span) :=
  if b = endMarker then .ok (f.clear, none)
  else
    match f.append maxFrame b with
    | .error e => .error e
    | .ok g => .ok (if g.pos.toNat = 12 then g.completeHeader else g, none)

/-- A byte other than the start marker in state Data (R145, R146). -/
def Fsp.pushData (maxFrame : Nat) (b : Byte) (f : Fsp) : Except Fault (Fsp × Option Span) :=
  if maxFrame ≤ f.pos.toNat then .ok (f.clear, none)
  else
    match f.append maxFrame b with
    | .error e => .error e
    | .ok g =>
      .ok (if g.pos.toNat = 12 + g.dlen.toNat then { g with state := .crcTail } else g, none)

/-- The end marker in state CrcTail, the hand-over (R148). -/
def Fsp.handOver (maxFrame : Nat) (f : Fsp) : Except Fault (Fsp × Option Span) :=
  if maxFrame ≤ f.pos.toNat then .ok (f.clear, none)
  else
    match f.append maxFrame endMarker with
    | .error e => .error e
    | .ok g => .ok (g.clear, some (g.captured g.pos.toNat))

/-- A byte other than the start marker in state CrcTail (R147, R148, R149). -/
def Fsp.pushTail (maxFrame : Nat) (b : Byte) (f : Fsp) : Except Fault (Fsp × Option Span) :=
  if b = endMarker then f.handOver maxFrame
  else if 12 + f.dlen.toNat + 4 ≤ f.pos.toNat then .ok (f.clear, none)
  else if maxFrame ≤ f.pos.toNat then .ok (f.clear, none)
  else
    match f.append maxFrame b with
    | .error e => .error e
    | .ok g => .ok (g, none)

/-- One byte into the parser (R140, R154): the start marker first, in any state, then the state's own
rule. -/
def Fsp.push (maxFrame : Nat) (b : Byte) (f : Fsp) : Except Fault (Fsp × Option Span) :=
  if b = startMarker then .ok (f.restart, none)
  else
    match f.state with
    | .idle => .ok (f, none)
    | .header => f.pushHeader maxFrame b
    | .data => f.pushData maxFrame b
    | .crcTail => f.pushTail maxFrame b

/-- The result group of a push: `ready` and `frame`, the frame empty when nothing is handed over
(R77, R140). -/
def captureResult (handed : Option Span) : ResultGroup :=
  .capture handed.isSome (handed.getD [])

/-- FSP.PUSH (R140). -/
def execFspPush (b : Byte) (s : State) : Host.Outcome State Fault Refusal :=
  match s.fsp.push blockParams.maxFrame b with
  | .error e => .fault e
  | .ok (f, handed) => .next ({ s with fsp := f }.answer .M (.ok (captureResult handed)))

/-- FSP.STAT (R152). -/
def execFspStat (s : State) : Host.Outcome State Fault Refusal :=
  .next (s.answer .M (.ok (.fspStatus (packStatus s.fsp))))

/-- FSP.RST (R153). -/
def execFspRst (s : State) : Host.Outcome State Fault Refusal :=
  .next ({ s with fsp := s.fsp.clear }.answer .M (.ok .none))

end Sys2Proof.Machine
end

