-- ==== Sys2Proof/Machine/Hex.lean ====
section
/-!
DEFINITION. The HEX unit (spec/41_hex_codec.md): HEX.ENCB, HEX.DECP, HEX.ENC, HEX.DEC. The unit has no
state (spec/10_state.md R23).
-/

namespace Sys2Proof.Machine

/-- `hexdigit(n)`: the uppercase character of a nibble (R84, R120). -/
def hexdigit (n : BitVec 4) : Byte :=
  if n.toNat ≤ 9 then BitVec.ofNat 8 (0x30 + n.toNat) else BitVec.ofNat 8 (0x41 + (n.toNat - 10))

/-- `hexval(c)`: the nibble of a character of `0-9A-F`; none for every other byte (R84, R121). -/
def hexval (c : Byte) : Option (BitVec 4) :=
  if 0x30 ≤ c.toNat ∧ c.toNat ≤ 0x39 then some (BitVec.ofNat 4 (c.toNat - 0x30))
  else if 0x41 ≤ c.toNat ∧ c.toNat ≤ 0x46 then some (BitVec.ofNat 4 (c.toNat - 0x41 + 10))
  else none

/-- The character of the high nibble of a byte (R122). -/
def hexHigh (b : Byte) : Byte := hexdigit (b.extractLsb' 4 4)

/-- The character of the low nibble of a byte (R122). -/
def hexLow (b : Byte) : Byte := hexdigit (b.extractLsb' 0 4)

/-- The byte of a pair of characters, the first supplying bits 7:4; INVALID_CHAR if either is outside
the alphabet (R123). -/
def hexPair (cHi cLo : Byte) : Except ErrorStatus Byte :=
  match hexval cHi, hexval cLo with
  | some h, some l => .ok (h ++ l)
  | _, _ => .error .invalidChar

/-- `hex_encode(s)` (R124). -/
def hexEncode : Span → Span
  | [] => []
  | b :: rest => hexHigh b :: hexLow b :: hexEncode rest

/-- The pairs of an even-length text from left to right; no bytes at all if one is invalid (R126). -/
def hexDecodePairs : Span → Except ErrorStatus Span
  | [] => .ok []
  | [_] => .error .oddLength
  | cHi :: cLo :: rest =>
    match hexPair cHi cLo with
    | .error e => .error e
    | .ok b =>
      match hexDecodePairs rest with
      | .error e => .error e
      | .ok bs => .ok (b :: bs)

/-- `hex_decode(t)` (R126): the length is tested before the characters. -/
def hexDecode (text : Span) : Except ErrorStatus Span :=
  if text.length % 2 = 1 then .error .oddLength else hexDecodePairs text

/-- HEX.ENCB (R122). -/
def execHexEncb (b : Byte) (s : State) : Host.Outcome State Fault Refusal :=
  .next (s.answer .M (.ok (.chars (hexHigh b) (hexLow b))))

/-- HEX.DECP (R123). -/
def execHexDecp (cHi cLo : Byte) (s : State) : Host.Outcome State Fault Refusal :=
  .next (s.answer .M (Response.of .byte (hexPair cHi cLo)))

/-- HEX.ENC (R125). -/
def execHexEnc (data : Span) (s : State) : Host.Outcome State Fault Refusal :=
  .next (s.answer .M (.ok (.span (hexEncode data))))

/-- HEX.DEC (R127). -/
def execHexDec (text : Span) (s : State) : Host.Outcome State Fault Refusal :=
  .next (s.answer .M (Response.of .span (hexDecode text)))

end Sys2Proof.Machine
end

