-- ==== Sys2Proof/Machine/Srb.lean ====
section
/-!
DEFINITION. The SRB unit, the sample ring buffer (spec/43_sample_ring.md): SRB.PUT, SRB.LATEST,
SRB.BYOFS, SRB.COUNT, SRB.FULL, SRB.CLR, in the fixed configuration and, through the policy argument, in
the reject-when-full variant (R186, R187).
-/

namespace Sys2Proof.Machine

/-- Store an entry at the write cursor, advance the cursor modulo 600, and count it up to 600 (R171). The
ring has slots 0 to 599 only (R31). -/
def Srb.store (e : SampleEntry) (r : Srb) : Except Fault Srb :=
  if r.head.toNat < 600 then
    .ok {
      ring := Memory.set r.ring r.head.toNat e
      head := BitVec.ofNat 10 ((r.head.toNat + 1) % 600)
      count := BitVec.ofNat 10 (min (r.count.toNat + 1) 600) }
  else .error (.ringIndex r.head.toNat)

/-- A put under a policy: overwrite-oldest always stores (R171); the variant answers FULL to a full ring
and changes nothing (R186). -/
def Srb.put (policy : SrbPolicy) (e : SampleEntry) (r : Srb) : Except Fault (Srb × Response) :=
  match policy with
  | .overwriteOldest =>
    match r.store e with
    | .error x => .error x
    | .ok r' => .ok (r', .ok .none)
  | .rejectWhenFull _ =>
    if r.isFull then .ok (r, .error .full)
    else
      match r.store e with
      | .error x => .error x
      | .ok r' => .ok (r', .ok .none)

/-- The newest entry, or EMPTY (R173). -/
def Srb.latest (r : Srb) : Except ErrorStatus SampleEntry :=
  if r.isEmpty then .error .empty else .ok (r.entry ((r.head.toNat + 599) % 600))

/-- The backward scan over the `n` entries from the k-th newest on: the first whose timestamp is at most
`target` (R178). -/
def Srb.scan (r : Srb) (target : BitVec 32) : Nat → Nat → Option SampleEntry
  | _, 0 => none
  | k, n + 1 =>
    if (r.newest k).timestamp.toNat ≤ target.toNat then some (r.newest k)
    else r.scan target (k + 1) n

/-- What an exhausted scan answers (R179; in the variant R187). -/
def Srb.exhausted (policy : SrbPolicy) (r : Srb) : Except ErrorStatus SampleEntry :=
  match policy with
  | .overwriteOldest => .error .empty
  | .rejectWhenFull .empty => .error .empty
  | .rejectWhenFull .oldest =>
    if r.isEmpty then .error .empty else .ok (r.newest (r.count.toNat - 1))

/-- `get_by_time_offset` (R175 to R179): the range check with the exact product, the target modulo 2^32,
the scan. -/
def Srb.byOffset (policy : SrbPolicy) (offsetMs now intervalMs : BitVec 32) (r : Srb) :
    Except ErrorStatus SampleEntry :=
  if offsetMs.toNat = 0 then .error .outOfRange
  else if 600 * intervalMs.toNat < offsetMs.toNat then .error .outOfRange
  else
    match r.scan (now - offsetMs) 0 r.count.toNat with
    | some e => .ok e
    | none => r.exhausted policy

/-- No entry is stored any more; the slots keep their contents (R182). -/
def Srb.clear (r : Srb) : Srb := { r with head := 0, count := 0 }

/-- The result group of a query that found an entry (R77, R88). -/
def entryResult (e : SampleEntry) : ResultGroup := .entry (packEntry e)

/-- SRB.PUT (R171), on port P. -/
def execSrbPut (e : SampleEntry) (s : State) : Host.Outcome State Fault Refusal :=
  match s.srb.put blockParams.srbPolicy e with
  | .error x => .fault x
  | .ok (r, answer) => .next ({ s with srb := r }.answer .P answer)

/-- SRB.LATEST (R173). -/
def execSrbLatest (s : State) : Host.Outcome State Fault Refusal :=
  .next (s.answer .M (Response.of entryResult s.srb.latest))

/-- SRB.BYOFS (R175). -/
def execSrbByofs (offsetMs now intervalMs : BitVec 32) (s : State) :
    Host.Outcome State Fault Refusal :=
  .next (s.answer .M (Response.of entryResult
    (s.srb.byOffset blockParams.srbPolicy offsetMs now intervalMs)))

/-- SRB.COUNT (R180). -/
def execSrbCount (s : State) : Host.Outcome State Fault Refusal :=
  .next (s.answer .M (.ok (.count s.srb.count)))

/-- SRB.FULL (R181). -/
def execSrbFull (s : State) : Host.Outcome State Fault Refusal :=
  .next (s.answer .M (.ok (.full s.srb.isFull)))

/-- SRB.CLR (R182). -/
def execSrbClr (s : State) : Host.Outcome State Fault Refusal :=
  .next ({ s with srb := s.srb.clear }.answer .M (.ok .none))

end Sys2Proof.Machine
end

