-- ==== Sys2Proof/Machine/Dispatch.lean ====
section
/-!
DEFINITION. One arm per operation (spec/30_encoding.md R72), each a call of its meaning.
-/

namespace Sys2Proof.Machine

def exec (i : Instr) (s : State) : Host.Outcome State Fault Refusal :=
  match i with
  | .crcStep acc b => Sys2Proof.Machine.execCrcStep acc b s
  | .crcSpan data => Sys2Proof.Machine.execCrcSpan data s
  | .hexEncb b => Sys2Proof.Machine.execHexEncb b s
  | .hexDecp cHi cLo => Sys2Proof.Machine.execHexDecp cHi cLo s
  | .hexEnc data => Sys2Proof.Machine.execHexEnc data s
  | .hexDec text => Sys2Proof.Machine.execHexDec text s
  | .fspPush b => Sys2Proof.Machine.execFspPush b s
  | .fspStat => Sys2Proof.Machine.execFspStat s
  | .fspRst => Sys2Proof.Machine.execFspRst s
  | .srbPut e => Sys2Proof.Machine.execSrbPut e s
  | .srbLatest => Sys2Proof.Machine.execSrbLatest s
  | .srbByofs offsetMs now intervalMs => Sys2Proof.Machine.execSrbByofs offsetMs now intervalMs s
  | .srbCount => Sys2Proof.Machine.execSrbCount s
  | .srbFull => Sys2Proof.Machine.execSrbFull s
  | .srbClr => Sys2Proof.Machine.execSrbClr s

end Sys2Proof.Machine
end

