-- ==== Sys2Proof/Machine/Perform.lean ====
section
/-!
DEFINITION. One operation of the block (spec/30_encoding.md R70): a transaction presented on a port is
decoded and performed as one indivisible step (spec/20_memory.md R58).
-/

namespace Sys2Proof.Machine

/-- Perform a transaction presented on port `p`. A reserved code, or a code of the other port, is
answered ILLEGAL_OP on the port that presented it and changes nothing else (R73, R74, log 6). -/
def perform (p : Port) (r : Request) (s : State) : Host.Outcome State Fault Refusal :=
  match decode p r with
  | .instr i => exec i s
  | .rejected _ => .next (s.raise p .illegalOp)

end Sys2Proof.Machine
end

