-- ==== Sys2Proof/Machine/Step.lean ====
section
/-!
DEFINITION. The step of the machine: one operation of one port (spec/00_scope.md R10,
spec/20_memory.md R58, R59). When neither port presents a transaction nothing happens (log 4).
-/

namespace Sys2Proof.Machine

/-- Serve one port: take the transaction it presents and perform it. -/
def step (s : State) : Host.Outcome State Fault Refusal :=
  match s.issue with
  | none => .next s
  | some (p, r, t) => perform p r t

/-- `s` with the transaction of an opcode-table word presented on the port its code belongs to, so that
the next step performs it (log 19). -/
def State.withFetchWord (s : State) (nbits w : Nat) : State :=
  s.present (portOfCode (BitVec.ofNat 8 w)) (tableRequest nbits w)

end Sys2Proof.Machine
end

