-- ==== Sys2Proof/Machine/Pseudo.lean ====
section
/-!
DEFINITION. The pseudo-operations (spec/30_encoding.md R79): named sequences of operations, each
performed through `exec` and read from the answer on the operation's port. `none` is a step that
stopped, or an answer of another shape than the operation gives.
-/

namespace Sys2Proof.Machine

/-- Perform one operation and read its answer. -/
def call (i : Instr) (s : State) : Option (State × Response) :=
  match exec i s with
  | .next t => (t.response i.port).map (fun r => (t, r))
  | .fault _ => none
  | .refused _ => none

/-- CRC.BYTES from an accumulator on: one CRC.STEP for each byte. -/
def crcBytesFrom (acc : BitVec 16) : Span → State → Option (State × BitVec 16)
  | [], s => some (s, acc)
  | b :: rest, s =>
    match call (.crcStep acc b) s with
    | some (t, .ok (.checksum v)) => crcBytesFrom v rest t
    | _ => none

/-- CRC.BYTES s. -/
def crcBytes (data : Span) (s : State) : Option (State × BitVec 16) :=
  crcBytesFrom 0x0000#16 data s

/-- CRC.FIELD v: HEX.ENC of the two bytes of a checksum, the high one first. -/
def crcFieldOp (v : BitVec 16) (s : State) : Option (State × Response) :=
  call (.hexEnc [v.extractLsb' 8 8, v.extractLsb' 0 8]) s

/-- CRC.UNFIELD t: HEX.DEC of the text, its two bytes joined; fails as HEX.DEC fails. -/
def crcUnfieldOp (text : Span) (s : State) : Option (State × Except ErrorStatus (BitVec 16)) :=
  match call (.hexDec text) s with
  | some (t, .ok (.span [h, l])) => some (t, .ok (h ++ l))
  | some (t, .error e) => some (t, .error e)
  | _ => none

/-- HEX.ENCS s: HEX.ENCB for each byte, the characters joined. -/
def hexEncs : Span → State → Option (State × Span)
  | [], s => some (s, [])
  | b :: rest, s =>
    match call (.hexEncb b) s with
    | some (t, .ok (.chars cHi cLo)) =>
      match hexEncs rest t with
      | some (u, text) => some (u, cHi :: cLo :: text)
      | none => none
    | _ => none

/-- The pairs of HEX.DECS: HEX.DECP from left to right, the first failure ending it. -/
def hexDecsPairs : Span → State → Option (State × Except ErrorStatus Span)
  | [], s => some (s, .ok [])
  | [_], s => some (s, .error .oddLength)
  | cHi :: cLo :: rest, s =>
    match call (.hexDecp cHi cLo) s with
    | some (t, .ok (.byte b)) =>
      match hexDecsPairs rest t with
      | some (u, .ok bytes) => some (u, .ok (b :: bytes))
      | some (u, .error e) => some (u, .error e)
      | none => none
    | some (t, .error e) => some (t, .error e)
    | _ => none

/-- HEX.DECS t: an odd length is ODD_LENGTH, else the pairs. -/
def hexDecs (text : Span) (s : State) : Option (State × Except ErrorStatus Span) :=
  if text.length % 2 = 1 then some (s, .error .oddLength) else hexDecsPairs text s

/-- FSP.FEED s: FSP.PUSH for each byte; the frames handed over, in order. -/
def fspFeed : Span → State → Option (State × List Span)
  | [], s => some (s, [])
  | b :: rest, s =>
    match call (.fspPush b) s with
    | some (t, .ok (.capture ready frame)) =>
      match fspFeed rest t with
      | some (u, frames) => some (u, if ready then frame :: frames else frames)
      | none => none
    | _ => none

/-- SRB.ISEMPTY: SRB.COUNT, compared with 0. -/
def srbIsEmpty (s : State) : Option (State × Bool) :=
  match call .srbCount s with
  | some (t, .ok (.count n)) => some (t, decide (n.toNat = 0))
  | _ => none

end Sys2Proof.Machine
end

