-- ==== Sys2Proof/Machine/Wire.lean ====
section
/-!
DEFINITION. The wire frame as a data encoding (spec/30_encoding.md Part B, R80 to R86): what the parser
captures, and the frame a sender builds from its fields with the checksum of
spec/44_consumer_context.md R209. No operation of the block uses these; they say what its operations
are for.
-/

namespace Sys2Proof.Machine

/-- `decimal(v, w)`: the w decimal digits of v, the most significant first, zero-padded (R11). -/
def decimal (v : Nat) : Nat → Span
  | 0 => []
  | w + 1 => BitVec.ofNat 8 (0x30 + v / 10 ^ w % 10) :: decimal v w

/-- The ID field (R83); none where a byte is no digit, for which no value is stated (N12). -/
def idField (d0 d1 : Byte) : Option Nat :=
  match digitValue d0, digitValue d1 with
  | some t, some u => some (10 * t + u)
  | _, _ => none

/-- The four characters of a checksum, the most significant nibble first (R85). -/
def checksumField (v : BitVec 16) : Span :=
  hexEncode [v.extractLsb' 8 8, v.extractLsb' 0 8]

/-- The checksum four received characters stand for; none if one is outside the alphabet (R85). -/
def checksumValue (t0 t1 t2 t3 : Byte) : Option (BitVec 16) :=
  match hexval t0, hexval t1, hexval t2, hexval t3 with
  | some a, some b, some c, some d => some (a ++ b ++ c ++ d)
  | _, _, _, _ => none

/-- The fields of a frame: sender, receiver, frame id and decoded payload (R80, R86). -/
structure FrameFields where
  sender : Span
  receiver : Span
  id : Nat
  payload : Span
deriving DecidableEq, Repr

/-- A byte that is neither delimiter (R81). -/
def notDelimiter (b : Byte) : Bool := b != startMarker && b != endMarker

/-- The fields fit the frame: three-byte addresses without delimiters, an id of two digits, a payload of
at most 128 bytes (R80, R81, R86). -/
def FrameFields.fits (x : FrameFields) : Bool :=
  decide (x.sender.length = 3) && x.sender.all notDelimiter
    && decide (x.receiver.length = 3) && x.receiver.all notDelimiter
    && decide (x.id ≤ 99) && decide (x.payload.length ≤ 128)

/-- The covered span: sender, receiver, LEN, ID and the payload in hex (R80, R86; R209). -/
def coveredSpan (x : FrameFields) : Span :=
  x.sender ++ x.receiver ++ decimal (2 * x.payload.length) 3 ++ decimal x.id 2
    ++ hexEncode x.payload

/-- The frame on the wire (R80). -/
def wireFrame (x : FrameFields) : Span :=
  startMarker :: (coveredSpan x ++ checksumField (crc16 (coveredSpan x)) ++ [endMarker])

end Sys2Proof.Machine
end

