-- ==== Sys2Proof/Safety.lean ====
section
/-!
DEFINITION. What holds of every reachable state (spec/10_state.md R29, R34), and the premises on the
environment that the laws of the ring name (spec/70_reset_and_hazards.md R256).
-/

namespace Sys2Proof.Machine

/-! ## The parser (R29) -/

/-- R29 (a) to (d) and (h): the cursors a state allows. -/
abbrev Fsp.CursorsInv (f : Fsp) : Prop :=
  (f.state = .idle ↔ f.pos.toNat = 0) ∧
  (f.state = .idle → f.dlen.toNat = 0) ∧
  (f.state = .header → 1 ≤ f.pos.toNat ∧ f.pos.toNat ≤ 11 ∧ f.dlen.toNat = 0) ∧
  (f.state = .data → 1 ≤ f.dlen.toNat ∧ f.dlen.toNat ≤ 256 ∧ 12 ≤ f.pos.toNat ∧
    f.pos.toNat < 12 + f.dlen.toNat) ∧
  (f.state = .crcTail → f.dlen.toNat ≤ 256 ∧ 12 + f.dlen.toNat ≤ f.pos.toNat ∧
    f.pos.toNat ≤ 12 + f.dlen.toNat + 4) ∧
  f.pos.toNat ≤ 272

/-- R29 (e), (f), (g), and that no checksum-tail byte is an end marker (R147 to R149): what the captured
bytes are. -/
abbrev Fsp.ContentsInv (f : Fsp) : Prop :=
  (1 ≤ f.pos.toNat → f.byte 0 = startMarker) ∧
  (∀ i < f.pos.toNat, 1 ≤ i → f.byte i ≠ startMarker) ∧
  (∀ i < f.pos.toNat, 1 ≤ i → i ≤ 11 → f.byte i ≠ endMarker) ∧
  (f.state = .data ∨ f.state = .crcTail →
    lenField (f.byte 7) (f.byte 8) (f.byte 9) = some f.dlen.toNat) ∧
  (f.state = .crcTail → ∀ i < f.pos.toNat, 12 + f.dlen.toNat ≤ i → f.byte i ≠ endMarker)

/-- CAP is in canonical form, and every captured byte has been written (R26). -/
abbrev Fsp.StorageInv (f : Fsp) : Prop :=
  Memory.wf 273 f.cap = true ∧ ∀ i < f.pos.toNat, (Memory.get f.cap i).isSome = true

/-- The invariant of the FSP record (R29, R26). -/
abbrev Fsp.Inv (f : Fsp) : Prop := f.CursorsInv ∧ f.ContentsInv ∧ f.StorageInv

/-- What keeps every store inside CAP for any MAX_FRAME (R150): CAP in canonical form, FSP_POS at most
MAX_FRAME, and a header not yet complete. -/
abbrev Fsp.Bounded (maxFrame : Nat) (f : Fsp) : Prop :=
  Memory.wf maxFrame f.cap = true ∧ f.pos.toNat ≤ maxFrame ∧
  (f.state = .header → f.pos.toNat ≤ 11)

/-! ## The ring (R34) -/

/-- The invariant of the SRB record: legal cursors (R32, R33), R34 (b), RING in canonical form, and every
slot that holds an entry has been written (R34 (a), (c)). -/
abbrev Srb.Inv (r : Srb) : Prop :=
  r.head.toNat < 600 ∧ r.count.toNat ≤ 600 ∧
  (r.count.toNat < 600 → r.head.toNat = r.count.toNat) ∧
  Memory.wf 600 r.ring = true ∧
  ∀ k < r.count.toNat, (Memory.get r.ring (ringSlot r.head.toNat k)).isSome = true

/-- The stored entries, newest first (R34 (a)). -/
def Srb.entries (r : Srb) : List SampleEntry := (List.range r.count.toNat).map r.newest

/-- R34 (d), the order the producer keeps: walked from newest to oldest no timestamp rises. -/
abbrev Srb.Ordered (r : Srb) : Prop :=
  ∀ k < r.count.toNat - 1, (r.newest (k + 1)).timestamp.toNat ≤ (r.newest k).timestamp.toNat

/-- ProducerMonotone for one put (R256): its timestamp is not below the newest stored one. -/
abbrev Srb.InOrder (r : Srb) (e : SampleEntry) : Prop :=
  r.count.toNat = 0 ∨ (r.newest 0).timestamp.toNat ≤ e.timestamp.toNat

/-! ## The machine -/

/-- The invariant of the machine. -/
abbrev State.Inv (s : State) : Prop := s.fsp.Inv ∧ s.srb.Inv

/-- Two machines whose FSP and SRB records differ at most in what no operation reads: CAP at and above
FSP_POS and RING outside the stored entries (R26, R34, R38), and in nothing else. -/
abbrev State.Alike (s t : State) : Prop :=
  s.fsp.state = t.fsp.state ∧ s.fsp.pos = t.fsp.pos ∧ s.fsp.dlen = t.fsp.dlen ∧
  (∀ i < s.fsp.pos.toNat, s.fsp.byte i = t.fsp.byte i) ∧
  s.srb.head = t.srb.head ∧ s.srb.count = t.srb.count ∧
  (∀ k < s.srb.count.toNat, s.srb.newest k = t.srb.newest k) ∧
  t = { s with fsp := t.fsp, srb := t.srb }

/-- Transactions of both ports performed one after the other (R59 (a), (c)). -/
def performAll : List (Port × Request) → State → Host.Outcome State Fault Refusal
  | [], s => .next s
  | (p, r) :: rest, s =>
    match perform p r s with
    | .next t => performAll rest t
    | .fault e => .fault e
    | .refused e => .refused e

/-- The transactions of one port among those of both, in their order (R59 (b)). -/
def ofPort (p : Port) : List (Port × Request) → List Request
  | [] => []
  | (q, r) :: rest => if q = p then r :: ofPort p rest else ofPort p rest

/-! ## Frames -/

/-- A complete span with payload length `len` that the parser captures whole (R156): the layout of R80,
the start marker first and nowhere else, no end marker in the header or the checksum field. -/
abbrev Capturable (len : Nat) (frame : Span) : Prop :=
  frame.length = 17 + len ∧
  frame.getD 0 0 = startMarker ∧
  (∀ i < 17 + len, 1 ≤ i → frame.getD i 0 ≠ startMarker) ∧
  (∀ i < 12, 1 ≤ i → frame.getD i 0 ≠ endMarker) ∧
  lenField (frame.getD 7 0) (frame.getD 8 0) (frame.getD 9 0) = some len ∧
  (∀ i < 16 + len, 12 + len ≤ i → frame.getD i 0 ≠ endMarker) ∧
  frame.getD (16 + len) 0 = endMarker

end Sys2Proof.Machine
end

