-- ==== Sys2Proof/Certificates/Slice0/Obligations.lean ====
section
/-!
DEFINITION. The statements for the provers. Each formalises rules of the spec or a property of the whole
machine; the docstring cites what it rests on. `t = { s with … }` says that every field not named is
unchanged.
-/

open Sys2Proof Sys2Proof.Machine

/-! ## Encoding and decoding -/

/-- Transactions written out in spec/95_test_vectors.md Part 3 and section 2.4 decode to the operations
they stand for, one for each code. -/
def Obligations.SpecTransactionsDecode : Prop :=
  decodeBytes .M [0x01, 0xB9, 0x2B, 0x4B] = .instr (.crcStep 0xB92B 0x4B) ∧
  decodeBytes .M [0x02, 0x4F, 0x4B] = .instr (.crcSpan [0x4F, 0x4B]) ∧
  decodeBytes .M [0x10, 0x4F] = .instr (.hexEncb 0x4F) ∧
  decodeBytes .M [0x11, 0x34, 0x46] = .instr (.hexDecp 0x34 0x46) ∧
  decodeBytes .M [0x12, 0x9F, 0x28] = .instr (.hexEnc [0x9F, 0x28]) ∧
  decodeBytes .M [0x13, 0x39, 0x46, 0x32, 0x38] = .instr (.hexDec [0x39, 0x46, 0x32, 0x38]) ∧
  decodeBytes .M [0x20, 0x26] = .instr (.fspPush 0x26) ∧
  decodeBytes .M [0x21] = .instr .fspStat ∧
  decodeBytes .M [0x2F] = .instr .fspRst ∧
  decodeBytes .P [0x30, 0x00, 0x00, 0x03, 0xE8, 0x00, 0x0A, 0x00, 0x0B, 0x00, 0x0C, 0x00, 0x0D] =
    .instr (.srbPut ⟨1000, 10, 11, 12, 13⟩) ∧
  decodeBytes .M [0x31] = .instr .srbLatest ∧
  decodeBytes .M [0x32, 0x00, 0x00, 0x00, 0x96, 0x00, 0x00, 0x04, 0xE2, 0x00, 0x00, 0x00, 0x64] =
    .instr (.srbByofs 150 1250 100) ∧
  decodeBytes .M [0x33] = .instr .srbCount ∧
  decodeBytes .M [0x34] = .instr .srbFull ∧
  decodeBytes .M [0x3F] = .instr .srbClr

/-- Decoding an encoded operation on its own port gives it back, with every operand at every value, on
the other port it is rejected by name (spec/30_encoding.md Part A), and the bytes it is written down as
decode back to it (spec/95_test_vectors.md Part 3; the written form is the model's reading of it,
log 18). -/
def Obligations.DecodeOfEncodeIsTheOperation : Prop :=
  ∀ i : Instr, decode i.port (encode i) = .instr i ∧
    (∀ p : Port, p ≠ i.port → decode p (encode i) = .rejected (.wrongPort i.code)) ∧
    decodeBytes i.port (written i) = .instr i

/-- The other direction: a transaction that decodes to `i` has `i`'s code and format, and if it carries
nothing outside that format's operand group it is the encoding of `i` (spec/30_encoding.md Part A; that
operand lines outside the group are ignored is the model's choice, log 1). -/
def Obligations.DecodedTransactionIsTheEncoding : Prop :=
  ∀ (p : Port) (r : Request) (i : Instr), decode p r = .instr i →
    i.code = r.op ∧ formatOf r.op = some i.format ∧ i.port = p ∧
    (r.fits i.format = true → encode i = r)

/-- R73 and R74: which codes each port accepts; a reserved code, and a listed code on the other port,
completes with status ILLEGAL_OP (0xFF) and no result, and changes nothing else; no other code is
refused. -/
def Obligations.IllegalCodesAnswerIllegalOp : Prop :=
  (∀ r : Request, (∃ i, decode .P r = .instr i) ↔ r.op = 0x30) ∧
  (∀ r : Request, (∃ i, decode .M r = .instr i) ↔
    r.op ∈ [0x01#8, 0x02#8, 0x10#8, 0x11#8, 0x12#8, 0x13#8, 0x20#8, 0x21#8, 0x2F#8, 0x31#8, 0x32#8,
      0x33#8, 0x34#8, 0x3F#8]) ∧
  (∀ (r : Request) (s : State), r.op = 0x30 →
    perform .M r s = .next { s with respM := some (.error .illegalOp) }) ∧
  (∀ (r : Request) (s : State),
    r.op ∈ [0x01#8, 0x02#8, 0x10#8, 0x11#8, 0x12#8, 0x13#8, 0x20#8, 0x21#8, 0x2F#8, 0x31#8, 0x32#8,
      0x33#8, 0x34#8, 0x3F#8] →
    perform .P r s = .next { s with respP := some (.error .illegalOp) }) ∧
  (∀ (r : Request) (s : State),
    (r.op.toNat = 0 ∨ (0x03 ≤ r.op.toNat ∧ r.op.toNat ≤ 0x0F) ∨
      (0x14 ≤ r.op.toNat ∧ r.op.toNat ≤ 0x1F) ∨ (0x22 ≤ r.op.toNat ∧ r.op.toNat ≤ 0x2E) ∨
      (0x35 ≤ r.op.toNat ∧ r.op.toNat ≤ 0x3E) ∨ 0x40 ≤ r.op.toNat) →
    perform .M r s = .next { s with respM := some (.error .illegalOp) } ∧
    perform .P r s = .next { s with respP := some (.error .illegalOp) }) ∧
  (Response.error .illegalOp).status = 0xFF

/-- R88: the packing of a SampleEntry bit by bit, on the operand of SRB.PUT and on the results of the
queries; every bit pattern is an entry. -/
def Obligations.EntryPackingIsBijective : Prop :=
  (∀ e : SampleEntry,
    (packEntry e).extractLsb' 64 32 = e.timestamp ∧ (packEntry e).extractLsb' 48 16 = e.clear ∧
    (packEntry e).extractLsb' 32 16 = e.red ∧ (packEntry e).extractLsb' 16 16 = e.green ∧
    (packEntry e).extractLsb' 0 16 = e.blue) ∧
  (∀ v : BitVec 96, packEntry (unpackEntry v) = v) ∧
  (∀ (v : BitVec 96) (d : Span), decode .P ⟨0x30, v, d⟩ = .instr (.srbPut (unpackEntry v))) ∧
  (∀ (s : State), s.srb.count.toNat ≠ 0 → exec .srbLatest s =
    .next { s with respM := some (.ok (.entry (packEntry (s.srb.newest 0)))) }) ∧
  (∀ (offsetMs now intervalMs : BitVec 32) (s t : State) (v : BitVec 96),
    exec (.srbByofs offsetMs now intervalMs) s = .next t → t.respM = some (.ok (.entry v)) →
    ∃ k < s.srb.count.toNat, v = packEntry (s.srb.newest k))

/-! ## The step -/

/-- A step performs the transaction presented on the port it serves: the operation decoded from it, on
the state with that transaction taken from the port (spec/00_scope.md section 5, spec/20_memory.md
section 4). With one port waiting it is that port; with both, `turns` says which, its head being used
up; with neither, nothing happens (the model's choices, log 2, 3, 4). -/
def Obligations.StepRunsTheDecodedOperation : Prop :=
  (∀ (s : State) (r : Request) (rest : List Request) (i : Instr),
    s.portM = r :: rest → decode .M r = .instr i →
    (s.portP = [] → step s = exec i { s with portM := rest }) ∧
    (∀ ts, s.portP ≠ [] → s.turns = .M :: ts →
      step s = exec i { s with portM := rest, turns := ts })) ∧
  (∀ (s : State) (r : Request) (rest : List Request) (i : Instr),
    s.portP = r :: rest → decode .P r = .instr i →
    (s.portM = [] → step s = exec i { s with portP := rest }) ∧
    (∀ ts, s.portM ≠ [] → s.turns = .P :: ts →
      step s = exec i { s with portP := rest, turns := ts })) ∧
  (∀ s : State, s.portM = [] → s.portP = [] → step s = .next s)

/-- Between two waiting ports either may be served first and nothing else can happen, whatever the free
choice is (spec/20_memory.md section 4; the two outcomes of spec/95_test_vectors.md Program 3 step 11):
a put and a latest query waiting together end in one of two states, the query seeing all of the put or
none of it, and each of the two is the outcome for some order. -/
def Obligations.ConcurrentPutAndLatestHaveTwoOutcomes : Prop :=
  ∀ (s : State) (e : SampleEntry), s.srb.Inv → s.srb.count.toNat ≠ 0 →
    s.portM = [encode .srbLatest] → s.portP = [encode (.srbPut e)] →
    (∃ t : State, Host.Core.run Sys2Proof.core 2 s = .next t ∧
      (t.respM = some (.ok (.entry (packEntry e))) ∨
        t.respM = some (.ok (.entry (packEntry (s.srb.newest 0))))) ∧
      t.respP = some (.ok .none) ∧ t.srb.newest 0 = e ∧ t.portM = [] ∧ t.portP = []) ∧
    (∃ t : State, Host.Core.run Sys2Proof.core 2 { s with turns := [.P] } = .next t ∧
      t.respM = some (.ok (.entry (packEntry e)))) ∧
    (∃ t : State, Host.Core.run Sys2Proof.core 2 { s with turns := [.M] } = .next t ∧
      t.respM = some (.ok (.entry (packEntry (s.srb.newest 0)))))

/-- However many steps the machine takes, what they did is one sequence of whole operations that takes
from each port a prefix of its transactions in its own order, and the block's state and answers are
those of performing that sequence (spec/20_memory.md section 4, the total order). The port queues are the
model's choice, log 2, and so is what decides between two waiting ports, log 3. -/
def Obligations.RunsInterleaveThePortsInOrder : Prop :=
  ∀ (n : Nat) (s t : State), Host.Core.run Sys2Proof.core n s = .next t →
    ∃ ops : List (Port × Request), ops.length ≤ n ∧
      s.portM = ofPort .M ops ++ t.portM ∧ s.portP = ofPort .P ops ++ t.portP ∧
      ∃ u, performAll ops s = .next u ∧ u.fsp = t.fsp ∧ u.srb = t.srb ∧
        u.respM = t.respM ∧ u.respP = t.respP

/-- Performing a transaction on a port changes neither what the ports still have to issue, nor the other
port's last answer (spec/30_encoding.md Part A, spec/20_memory.md section 4). -/
def Obligations.PerformAnswersOnItsOwnPort : Prop :=
  ∀ (p : Port) (r : Request) (s t : State), perform p r s = .next t →
    (t.response p).isSome = true ∧ (∀ q, q ≠ p → t.response q = s.response q) ∧
    t = { s with fsp := t.fsp, srb := t.srb, respM := t.respM, respP := t.respP }

/-! ## The whole machine -/

/-- Every step keeps the invariant of the FSP record and of the SRB record (spec/10_state.md sections 2
and 3, the spec's derived invariants). -/
def Obligations.StepKeepsTheInvariant : Prop :=
  ∀ s t : State, s.Inv → step s = .next t → t.Inv

/-- The invariant holds after reset. -/
def Obligations.ResetMeetsTheInvariant : Prop := State.reset.Inv

/-- Nothing stops the machine: from every state that meets the invariant every operation, and every step,
answers a next state (spec/60_exceptions.md section 3: no operation of this block faults, nothing
hangs). -/
def Obligations.InvariantStatesNeverStop : Prop :=
  (∀ (i : Instr) (s : State), s.Inv → ∃ t, exec i s = .next t) ∧
  (∀ s : State, s.Inv → ∃ t, step s = .next t)

/-- The state after reset: the cursors as spec/70_reset_and_hazards.md section 1 gives them. The contents of
CAP and RING are unspecified there; that nothing is listed in either is the model's choice (log 7 for CAP,
log 8 for RING). -/
def Obligations.ResetStateIsAsSpecified : Prop :=
  Sys2Proof.core.reset = State.reset ∧
  State.reset.fsp.state = .idle ∧ State.reset.fsp.pos.toNat = 0 ∧ State.reset.fsp.dlen.toNat = 0 ∧
  State.reset.srb.head.toNat = 0 ∧ State.reset.srb.count.toNat = 0 ∧
  (∀ i, Memory.get State.reset.fsp.cap i = none) ∧ (∀ i, Memory.get State.reset.srb.ring i = none)

/-- What the first operations after reset answer, whatever CAP and RING hold (spec/70_reset_and_hazards.md
section 1, derived there). -/
def Obligations.FirstAnswersAfterReset : Prop :=
  ∀ s : State, s.fsp.state = .idle → s.fsp.pos = 0 → s.fsp.dlen = 0 → s.srb.head = 0 →
    s.srb.count = 0 →
    exec .fspStat s = .next { s with respM := some (.ok (.fspStatus 0)) } ∧
    (∀ b : Byte, b ≠ 0x26 →
      exec (.fspPush b) s = .next { s with respM := some (.ok (.capture false [])) }) ∧
    exec .srbCount s = .next { s with respM := some (.ok (.count 0)) } ∧
    exec .srbFull s = .next { s with respM := some (.ok (.full false)) } ∧
    exec .srbLatest s = .next { s with respM := some (.error .empty) } ∧
    (∀ offsetMs now intervalMs : BitVec 32, offsetMs.toNat ≠ 0 →
      offsetMs.toNat ≤ 600 * intervalMs.toNat →
      exec (.srbByofs offsetMs now intervalMs) s = .next { s with respM := some (.error .empty) }) ∧
    (∀ now intervalMs : BitVec 32,
      exec (.srbByofs 0 now intervalMs) s = .next { s with respM := some (.error .outOfRange) })

/-- What CAP holds at and above FSP_POS and RING outside the stored entries cannot be observed: two
states that differ only there answer every operation alike and again differ only there
(spec/10_state.md R26, R34 and spec/93_implementation_defined.md U1, U2; derived). -/
def Obligations.UnspecifiedContentsAreUnobservable : Prop :=
  ∀ (i : Instr) (s t : State), s.Inv → t.Inv → s.Alike t →
    ∃ s' t', exec i s = .next s' ∧ exec i t = .next t' ∧ s'.Alike t'

/-- The eleven operations that change no state, always complete, and answer the same for the same
operands and the same block state (spec/20_memory.md section 3). -/
def Obligations.PureOperationsOnlyAnswer : Prop :=
  ∀ i : Instr, (∀ b, i ≠ .fspPush b) → i ≠ .fspRst → (∀ e, i ≠ .srbPut e) → i ≠ .srbClr →
    ∀ s u : State, u.fsp = s.fsp → u.srb = s.srb → ∃ r : Response,
      exec i s = .next { s with respM := some r } ∧ exec i u = .next { u with respM := some r }

/-- Ownership (spec/43_sample_ring.md sections 1 and 3, spec/60_exceptions.md section 3): port M never
writes a ring slot and changes the ring's cursors by SRB.CLR only; port P changes nothing of the parser
and nothing on port M. -/
def Obligations.PortsKeepToTheirOwnState : Prop :=
  (∀ (r : Request) (s t : State), perform .M r s = .next t →
    t.srb.ring = s.srb.ring ∧ (r.op ≠ 0x3F → t.srb = s.srb) ∧ t.respP = s.respP) ∧
  (∀ (r : Request) (s t : State), perform .P r s = .next t →
    t.fsp = s.fsp ∧ t.respM = s.respM ∧ (r.op ≠ 0x30 → t.srb = s.srb))

/-- An operation that answers an error status has changed no state of the block
(spec/60_exceptions.md section 2). -/
def Obligations.ErrorAnswersChangeNoState : Prop :=
  ∀ (p : Port) (r : Request) (s t : State) (e : ErrorStatus), perform p r s = .next t →
    t.response p = some (.error e) → t.fsp = s.fsp ∧ t.srb = s.srb

/-- R253: FSP.RST has on the FSP, and SRB.CLR on the SRB, exactly the effect of reset (the cursors and the
state; the contents of CAP and RING, unspecified after reset, stay); neither touches the other unit. -/
def Obligations.PartialResetsResetOneUnit : Prop :=
  (∀ s : State, ∃ t, exec .fspRst s = .next t ∧
    t.fsp = { Fsp.reset with cap := s.fsp.cap } ∧
    t = { s with fsp := t.fsp, respM := some (.ok .none) }) ∧
  (∀ s : State, ∃ t, exec .srbClr s = .next t ∧
    t.srb = { Srb.reset with ring := s.srb.ring } ∧
    t = { s with srb := t.srb, respM := some (.ok .none) })

/-! ## CRC -/

/-- CRC.STEP (spec/40_crc16.md section 1): its encoding, its answer, that nothing else changes, its corner
values and example. The general clause of that rule about a zero byte is in
`ZeroByteLeavesTwoAccumulators`. -/
def Obligations.CrcStepAnswersTheUpdate : Prop :=
  (∀ (v : BitVec 96) (d : Span),
    decode .M ⟨0x01, v, d⟩ = .instr (.crcStep (v.extractLsb' 8 16) (v.extractLsb' 0 8))) ∧
  (∀ (acc : BitVec 16) (b : Byte) (s : State), exec (.crcStep acc b) s =
    .next { s with respM := some (.ok (.checksum (crcUpdate acc b))) }) ∧
  crcUpdate 0x0000 0x00 = 0x0000 ∧ crcUpdate 0xFFFF 0x00 = 0xE1F0 ∧ crcUpdate 0x0000 0x01 = 0x1021

/-- `crc_update` is the loop of spec/40_crc16.md section 1, read as numbers: exclusive-or the byte into
bits 15:8, then eight times shift left modulo 2^16 and exclusive-or 0x1021 if bit 15 was one. The bit
order is the spec's decision D6. -/
def Obligations.CrcUpdateIsTheBitLoop : Prop :=
  ∀ (acc : BitVec 16) (b : Byte), ∃ a : Nat → Nat,
    a 0 = acc.toNat ^^^ (b.toNat * 2 ^ 8) ∧
    (∀ k < 8, a (k + 1) =
      if a k / 2 ^ 15 % 2 = 1 then (a k * 2 % 2 ^ 16) ^^^ 0x1021 else a k * 2 % 2 ^ 16) ∧
    (crcUpdate acc b).toNat = a 8

/-- A zero byte leaves the accumulator unchanged for two accumulators, 0x0000 and 0xF01F, and for no
other. (spec/40_crc16.md section 1 says in passing that a zero byte changes every non-zero accumulator:
by its own pseudocode that is so but for 0xF01F.) -/
def Obligations.ZeroByteLeavesTwoAccumulators : Prop :=
  ∀ acc : BitVec 16, crcUpdate acc 0x00 = acc ↔ acc = 0x0000 ∨ acc = 0xF01F

/-- R103: CRC.SPAN answers `crc16` of its span, for spans of any length, and changes nothing else; the
empty span and every span of zero bytes give 0x0000; the example. -/
def Obligations.CrcSpanAnswersTheChecksum : Prop :=
  (∀ (v : BitVec 96) (d : Span), decode .M ⟨0x02, v, d⟩ = .instr (.crcSpan d)) ∧
  (∀ (d : Span) (s : State), exec (.crcSpan d) s =
    .next { s with respM := some (.ok (.checksum (crc16 d))) }) ∧
  crc16 [] = 0x0000 ∧ (∀ n : Nat, crc16 (List.replicate n 0x00) = 0x0000) ∧
  crc16 [0x31, 0x32, 0x33, 0x34, 0x35, 0x36, 0x37, 0x38, 0x39] = 0x31C3

/-- The pseudo-operation CRC.BYTES, one CRC.STEP for each byte from 0x0000, ends with the answer CRC.SPAN
gives for the whole span, and changes nothing but the port's answer (spec/40_crc16.md section 3 law (a),
spec/30_encoding.md Part A; derived there). -/
def Obligations.CrcBytesEqualsCrcSpan : Prop :=
  ∀ (d : Span) (s : State), ∃ t, crcBytes d s = some (t, crc16 d) ∧
    t = { s with respM := t.respM }

/-- The checksum is linear over bytewise exclusive-or of spans of equal length, blind to leading zero
bytes, and zero when a span is followed by its own checksum, high byte first (spec/40_crc16.md section 3
laws (c), (d), (e); derived there). -/
def Obligations.CrcIsLinearWithZeroResidue : Prop :=
  (∀ d e : Span, d.length = e.length →
    crc16 (List.zipWith (fun x y => x ^^^ y) d e) = crc16 d ^^^ crc16 e) ∧
  (∀ (n : Nat) (d : Span), crc16 (List.replicate n 0x00 ++ d) = crc16 d) ∧
  (∀ d : Span, crc16 (d ++ [(crc16 d).extractLsb' 8 8, (crc16 d).extractLsb' 0 8]) = 0x0000)

/-- A single bit flipped anywhere in a span of any length changes its checksum (spec/40_crc16.md
section 3 law (f)). -/
def Obligations.CrcDetectsEverySingleBitFlip : Prop :=
  ∀ (d : Span) (i : Nat) (bit : Nat), i < d.length → bit < 8 →
    crc16 (d.set i (d.getD i 0 ^^^ (1#8 <<< bit))) ≠ crc16 d

/-- The byte-at-a-time table form equals the bitwise definition (spec/40_crc16.md section 3; derived
there), with the table entries listed there. -/
def Obligations.CrcTableFormAgrees : Prop :=
  (∀ (acc : BitVec 16) (b : Byte),
    crcUpdate acc b = (acc <<< 8) ^^^ crcUpdate 0x0000 (acc.extractLsb' 8 8 ^^^ b)) ∧
  crcUpdate 0 0x02 = 0x2042 ∧ crcUpdate 0 0x03 = 0x3063 ∧ crcUpdate 0 0x04 = 0x4084 ∧
  crcUpdate 0 0x05 = 0x50A5 ∧ crcUpdate 0 0x06 = 0x60C6 ∧ crcUpdate 0 0x07 = 0x70E7 ∧
  crcUpdate 0 0x80 = 0x9188 ∧ crcUpdate 0 0xFF = 0x1EF0

/-! ## HEX -/

/-- R84 and R121: the digit of each nibble and the value of each character; 16 of the 256 bytes are
characters of the alphabet; the two functions are inverse. -/
def Obligations.HexDigitsAndValues : Prop :=
  (∀ n : BitVec 4, (n.toNat ≤ 9 → (hexdigit n).toNat = 0x30 + n.toNat) ∧
    (10 ≤ n.toNat → (hexdigit n).toNat = 0x41 + (n.toNat - 10))) ∧
  (∀ c : Byte, (0x30 ≤ c.toNat ∧ c.toNat ≤ 0x39 →
      ∃ n, hexval c = some n ∧ n.toNat = c.toNat - 0x30) ∧
    (0x41 ≤ c.toNat ∧ c.toNat ≤ 0x46 → ∃ n, hexval c = some n ∧ n.toNat = c.toNat - 0x41 + 10) ∧
    (¬ (0x30 ≤ c.toNat ∧ c.toNat ≤ 0x39) → ¬ (0x41 ≤ c.toNat ∧ c.toNat ≤ 0x46) →
      hexval c = none)) ∧
  (∀ n : BitVec 4, hexval (hexdigit n) = some n) ∧
  (∀ (c : Byte) (n : BitVec 4), hexval c = some n → hexdigit n = c) ∧
  ((List.range 256).filter (fun v => (hexval (BitVec.ofNat 8 v)).isSome)).length = 16 ∧
  (∀ b : Byte, hexEncode [b] = [hexdigit (b.extractLsb' 4 4), hexdigit (b.extractLsb' 0 4)])

/-- R122: HEX.ENCB answers the two uppercase digits of its byte, the high nibble's first, and changes
nothing else; corner cases and example. -/
def Obligations.HexEncbAnswersTwoDigits : Prop :=
  (∀ (v : BitVec 96) (d : Span),
    decode .M ⟨0x10, v, d⟩ = .instr (.hexEncb (v.extractLsb' 0 8))) ∧
  (∀ (b : Byte) (s : State), exec (.hexEncb b) s = .next { s with
    respM := some (.ok (.chars (hexdigit (b.extractLsb' 4 4)) (hexdigit (b.extractLsb' 0 4)))) }) ∧
  (∀ s : State,
    exec (.hexEncb 0x00) s = .next { s with respM := some (.ok (.chars 0x30 0x30)) } ∧
    exec (.hexEncb 0xFF) s = .next { s with respM := some (.ok (.chars 0x46 0x46)) } ∧
    exec (.hexEncb 0x0A) s = .next { s with respM := some (.ok (.chars 0x30 0x41)) } ∧
    exec (.hexEncb 0xA0) s = .next { s with respM := some (.ok (.chars 0x41 0x30)) } ∧
    exec (.hexEncb 0x4F) s = .next { s with respM := some (.ok (.chars 0x34 0x46)) })

/-- R123: HEX.DECP answers the byte of two valid characters, the first supplying bits 7:4, and
INVALID_CHAR if either is outside the alphabet; nothing else changes; corner cases and example. -/
def Obligations.HexDecpAnswersTheByteOrInvalidChar : Prop :=
  (∀ (v : BitVec 96) (d : Span),
    decode .M ⟨0x11, v, d⟩ = .instr (.hexDecp (v.extractLsb' 8 8) (v.extractLsb' 0 8))) ∧
  (∀ (cHi cLo : Byte) (h l : BitVec 4) (s : State), hexval cHi = some h → hexval cLo = some l →
    exec (.hexDecp cHi cLo) s = .next { s with respM := some (.ok (.byte (h ++ l))) }) ∧
  (∀ (cHi cLo : Byte) (s : State), hexval cHi = none ∨ hexval cLo = none →
    exec (.hexDecp cHi cLo) s = .next { s with respM := some (.error .invalidChar) }) ∧
  (∀ s : State,
    exec (.hexDecp 0x34 0x66) s = .next { s with respM := some (.error .invalidChar) } ∧
    exec (.hexDecp 0x30 0x30) s = .next { s with respM := some (.ok (.byte 0x00)) } ∧
    exec (.hexDecp 0x34 0x42) s = .next { s with respM := some (.ok (.byte 0x4B)) })

/-- R124 and R125: HEX.ENC answers a text twice as long whose characters 2i and 2i+1 are the digits of
byte i, and changes nothing else; every character is of the alphabet, so none is a delimiter; the
example. -/
def Obligations.HexEncAnswersTheText : Prop :=
  (∀ (v : BitVec 96) (d : Span), decode .M ⟨0x12, v, d⟩ = .instr (.hexEnc d)) ∧
  (∀ (d : Span) (s : State), ∃ t : Span,
    exec (.hexEnc d) s = .next { s with respM := some (.ok (.span t)) } ∧
    t.length = 2 * d.length ∧
    (∀ i < d.length, t.getD (2 * i) 0 = hexdigit ((d.getD i 0).extractLsb' 4 4) ∧
      t.getD (2 * i + 1) 0 = hexdigit ((d.getD i 0).extractLsb' 0 4)) ∧
    (∀ c ∈ t, (hexval c).isSome = true ∧ c ≠ 0x26 ∧ c ≠ 0x2A)) ∧
  (∀ s : State, exec (.hexEnc []) s = .next { s with respM := some (.ok (.span [])) } ∧
    exec (.hexEnc [0x4F, 0x4B]) s =
      .next { s with respM := some (.ok (.span [0x34, 0x46, 0x34, 0x42])) })

/-- R126 and R127: HEX.DEC answers ODD_LENGTH for every text of odd length, else INVALID_CHAR if any
character is outside the alphabet, else the bytes of the pairs from left to right; nothing else
changes; corner cases and example. -/
def Obligations.HexDecAnswersTheBytesOrTheRejection : Prop :=
  (∀ (v : BitVec 96) (d : Span), decode .M ⟨0x13, v, d⟩ = .instr (.hexDec d)) ∧
  (∀ (text : Span) (s : State), text.length % 2 = 1 →
    exec (.hexDec text) s = .next { s with respM := some (.error .oddLength) }) ∧
  (∀ (text : Span) (s : State), text.length % 2 = 0 → (∃ c ∈ text, hexval c = none) →
    exec (.hexDec text) s = .next { s with respM := some (.error .invalidChar) }) ∧
  (∀ (text : Span) (s : State), text.length % 2 = 0 → (∀ c ∈ text, hexval c ≠ none) →
    ∃ bytes : Span, exec (.hexDec text) s = .next { s with respM := some (.ok (.span bytes)) } ∧
      bytes.length = text.length / 2 ∧
      ∀ i < text.length / 2, ∃ h l : BitVec 4, hexval (text.getD (2 * i) 0) = some h ∧
        hexval (text.getD (2 * i + 1) 0) = some l ∧ bytes.getD i 0 = h ++ l) ∧
  (∀ s : State,
    exec (.hexDec []) s = .next { s with respM := some (.ok (.span [])) } ∧
    exec (.hexDec [0x34, 0x66, 0x34, 0x62]) s =
      .next { s with respM := some (.error .invalidChar) } ∧
    exec (.hexDec [0x34, 0x46, 0x34]) s = .next { s with respM := some (.error .oddLength) } ∧
    exec (.hexDec [0x34, 0x46, 0x34, 0x47]) s =
      .next { s with respM := some (.error .invalidChar) } ∧
    exec (.hexDec [0x34, 0x47, 0x34]) s = .next { s with respM := some (.error .oddLength) } ∧
    exec (.hexDec [0x30, 0x78, 0x34, 0x46]) s =
      .next { s with respM := some (.error .invalidChar) } ∧
    exec (.hexDec [0x35, 0x33, 0x35, 0x34, 0x34, 0x31, 0x35, 0x32, 0x35, 0x34]) s =
      .next { s with respM := some (.ok (.span [0x53, 0x54, 0x41, 0x52, 0x54])) })

/-- Encoding and decoding are mutually inverse bijections between all spans and the texts that decode,
and both go through concatenation (spec/41_hex_codec.md section 4 laws (a), (b), (d); (a) is the
document's own, the others derived there). -/
def Obligations.HexCodecIsBijective : Prop :=
  (∀ x : Span, hexDecode (hexEncode x) = .ok x) ∧
  (∀ t x : Span, hexDecode t = .ok x → hexEncode x = t) ∧
  (∀ x y : Span, hexEncode (x ++ y) = hexEncode x ++ hexEncode y) ∧
  (∀ t v w : Span, t.length % 2 = 0 →
    (hexDecode (t ++ v) = .ok w ↔
      ∃ x y, hexDecode t = .ok x ∧ hexDecode v = .ok y ∧ w = x ++ y))

/-- The pseudo-operations HEX.ENCS, HEX.DECS, CRC.FIELD, CRC.UNFIELD and SRB.ISEMPTY, performed as their
sequences of operations, give what the span operations give (spec/30_encoding.md Part A,
spec/41_hex_codec.md section 4 law (e); derived there) and change nothing but the port's answer. -/
def Obligations.PseudoOperationsAgree : Prop :=
  (∀ (d : Span) (s : State), ∃ t, hexEncs d s = some (t, hexEncode d) ∧
    t = { s with respM := t.respM }) ∧
  (∀ (text : Span) (s : State), ∃ t, hexDecs text s = some (t, hexDecode text) ∧
    t = { s with respM := t.respM }) ∧
  (∀ (v : BitVec 16) (s : State), ∃ t u,
    crcFieldOp v s = some (t, .ok (.span (checksumField v))) ∧
    crcUnfieldOp (checksumField v) t = some (u, .ok v) ∧ u = { s with respM := u.respM }) ∧
  (∀ s : State, ∃ t, srbIsEmpty s = some (t, decide (s.srb.count.toNat = 0)) ∧
    t = { s with respM := t.respM })

/-! ## FSP -/

/-- R141: a start marker restarts capture in any state, whatever the record holds: Header, CAP[0] the
marker, FSP_POS 1, FSP_DLEN 0, nothing handed over, no other byte of CAP and nothing else changed. -/
def Obligations.StartMarkerRestartsInAnyState : Prop :=
  ∀ s : State, ∃ t, exec (.fspPush 0x26) s = .next t ∧
    t.fsp.state = .header ∧ t.fsp.pos.toNat = 1 ∧ t.fsp.dlen.toNat = 0 ∧
    Memory.get t.fsp.cap 0 = some 0x26 ∧
    (∀ i, i ≠ 0 → Memory.get t.fsp.cap i = Memory.get s.fsp.cap i) ∧
    t = { s with fsp := t.fsp, respM := some (.ok (.capture false [])) }

/-- R142: in Idle every byte but the start marker is discarded, the end marker included: nothing but the
port's answer changes, and nothing is handed over. -/
def Obligations.IdleDiscardsEveryOtherByte : Prop :=
  ∀ (b : Byte) (s : State), s.fsp.state = .idle → b ≠ 0x26 →
    exec (.fspPush b) s = .next { s with respM := some (.ok (.capture false [])) }

/-- R143 and R144: in Header the end marker aborts, at each position: Idle, both cursors 0, CAP as it was,
nothing handed over (R151). Every other byte but the start marker is stored at CAP[FSP_POS] untested and
FSP_POS advances; the 11th completes the header: a length digit outside 0x30 to 0x39 or a value above
256 aborts, else FSP_DLEN is the value and the state is Data, or CrcTail for the value 0. The premise on
FSP_POS is what the invariant gives in Header. -/
def Obligations.HeaderBytesAreStoredAndTheEleventhDecodesLength : Prop :=
  (∀ s : State, s.fsp.state = .header →
    exec (.fspPush 0x2A) s = .next { s with
      fsp := { s.fsp with state := .idle, pos := 0, dlen := 0 }
      respM := some (.ok (.capture false [])) }) ∧
  (∀ (b : Byte) (s : State), s.fsp.state = .header → s.fsp.pos.toNat ≤ 11 → b ≠ 0x26 → b ≠ 0x2A →
    ∃ t, exec (.fspPush b) s = .next t ∧
      t = { s with fsp := t.fsp, respM := some (.ok (.capture false [])) } ∧
      Memory.get t.fsp.cap s.fsp.pos.toNat = some b ∧
      (∀ i, i ≠ s.fsp.pos.toNat → Memory.get t.fsp.cap i = Memory.get s.fsp.cap i) ∧
      (s.fsp.pos.toNat + 1 < 12 → t.fsp.state = .header ∧ t.fsp.pos.toNat = s.fsp.pos.toNat + 1 ∧
        t.fsp.dlen = s.fsp.dlen) ∧
      (s.fsp.pos.toNat + 1 = 12 → ∀ d0 d1 d2 : Nat,
        d0 = (s.fsp.byte 7).toNat → d1 = (s.fsp.byte 8).toNat → d2 = (s.fsp.byte 9).toNat →
        if (0x30 ≤ d0 ∧ d0 ≤ 0x39) ∧ (0x30 ≤ d1 ∧ d1 ≤ 0x39) ∧ (0x30 ≤ d2 ∧ d2 ≤ 0x39) ∧
            100 * (d0 - 0x30) + 10 * (d1 - 0x30) + (d2 - 0x30) ≤ 256 then
          t.fsp.pos.toNat = 12 ∧
          t.fsp.dlen.toNat = 100 * (d0 - 0x30) + 10 * (d1 - 0x30) + (d2 - 0x30) ∧
          (t.fsp.dlen.toNat = 0 → t.fsp.state = .crcTail) ∧
          (1 ≤ t.fsp.dlen.toNat → t.fsp.state = .data)
        else t.fsp.state = .idle ∧ t.fsp.pos.toNat = 0 ∧ t.fsp.dlen.toNat = 0))

/-- R145 and R146: in Data every byte but the start marker, the end marker included, is stored and
counted, the last one leading to CrcTail; a capture already MAX_FRAME long is aborted instead, which no
state that meets the invariant reaches. -/
def Obligations.DataByteIsStoredWhateverItIs : Prop :=
  ∀ (b : Byte) (s : State), s.fsp.state = .data → b ≠ 0x26 →
    (s.fsp.Inv → s.fsp.pos.toNat ≤ 267) ∧
    (273 ≤ s.fsp.pos.toNat → exec (.fspPush b) s = .next { s with
      fsp := { s.fsp with state := .idle, pos := 0, dlen := 0 }
      respM := some (.ok (.capture false [])) }) ∧
    (s.fsp.pos.toNat < 273 → ∃ t, exec (.fspPush b) s = .next t ∧
      t = { s with fsp := t.fsp, respM := some (.ok (.capture false [])) } ∧
      Memory.get t.fsp.cap s.fsp.pos.toNat = some b ∧
      (∀ i, i ≠ s.fsp.pos.toNat → Memory.get t.fsp.cap i = Memory.get s.fsp.cap i) ∧
      t.fsp.pos.toNat = s.fsp.pos.toNat + 1 ∧ t.fsp.dlen = s.fsp.dlen ∧
      t.fsp.state = if s.fsp.pos.toNat + 1 = 12 + s.fsp.dlen.toNat then .crcTail else .data)

/-- R147 and R149: in CrcTail a byte that is neither delimiter is stored while fewer than four tail bytes
are held; a fifth, or one beyond MAX_FRAME, aborts. -/
def Obligations.TailByteIsStoredUpToFour : Prop :=
  ∀ (b : Byte) (s : State), s.fsp.state = .crcTail → b ≠ 0x26 → b ≠ 0x2A →
    (12 + s.fsp.dlen.toNat + 4 ≤ s.fsp.pos.toNat ∨ 273 ≤ s.fsp.pos.toNat →
      exec (.fspPush b) s = .next { s with
        fsp := { s.fsp with state := .idle, pos := 0, dlen := 0 }
        respM := some (.ok (.capture false [])) }) ∧
    (s.fsp.pos.toNat < 12 + s.fsp.dlen.toNat + 4 → s.fsp.pos.toNat < 273 →
      ∃ t, exec (.fspPush b) s = .next t ∧
      t = { s with fsp := t.fsp, respM := some (.ok (.capture false [])) } ∧
      Memory.get t.fsp.cap s.fsp.pos.toNat = some b ∧
      (∀ i, i ≠ s.fsp.pos.toNat → Memory.get t.fsp.cap i = Memory.get s.fsp.cap i) ∧
      t.fsp.pos.toNat = s.fsp.pos.toNat + 1 ∧ t.fsp.dlen = s.fsp.dlen ∧ t.fsp.state = .crcTail)

/-- R148: in CrcTail the end marker ends the capture whatever the number of tail bytes: ready = 1 with
the bytes CAP[0 .. FSP_POS-1] followed by the marker, and the record cleared in the same step; in a
state that meets the invariant the span has length 13 + FSP_DLEN + k, from 13 to 273. At MAX_FRAME or
above it aborts. -/
def Obligations.EndMarkerInTailHandsOver : Prop :=
  ∀ s : State, s.fsp.state = .crcTail →
    (273 ≤ s.fsp.pos.toNat → exec (.fspPush 0x2A) s = .next { s with
      fsp := { s.fsp with state := .idle, pos := 0, dlen := 0 }
      respM := some (.ok (.capture false [])) }) ∧
    (s.fsp.pos.toNat < 273 → ∃ t, exec (.fspPush 0x2A) s = .next t ∧
      t = { s with fsp := t.fsp, respM := some (.ok (.capture true
        ((List.range s.fsp.pos.toNat).map s.fsp.byte ++ [0x2A]))) } ∧
      t.fsp.state = .idle ∧ t.fsp.pos.toNat = 0 ∧ t.fsp.dlen.toNat = 0 ∧
      Memory.get t.fsp.cap s.fsp.pos.toNat = some 0x2A ∧
      (∀ i, i ≠ s.fsp.pos.toNat → Memory.get t.fsp.cap i = Memory.get s.fsp.cap i)) ∧
    (s.fsp.Inv → s.fsp.pos.toNat ≤ 272 ∧ ∃ k ≤ 4,
      s.fsp.pos.toNat + 1 = 13 + s.fsp.dlen.toNat + k ∧ 13 ≤ s.fsp.pos.toNat + 1)

/-- The frame of FSP.PUSH in every form: whatever byte, whatever state, if it completes nothing changes
but the FSP record and port M's answer, which is OK with `frame` empty when `ready` is 0; and in CAP
nothing but the element stored to, which is index 0 on a start marker and FSP_POS otherwise
(spec/42_frame_parser.md section 1). -/
def Obligations.PushFrame : Prop :=
  ∀ (b : Byte) (s t : State), exec (.fspPush b) s = .next t →
    t = { s with fsp := t.fsp, respM := t.respM } ∧
    (∃ ready frame, t.respM = some (.ok (.capture ready frame)) ∧ (ready = false → frame = [])) ∧
    ∀ i, i ≠ (if b = 0x26 then 0 else s.fsp.pos.toNat) →
      Memory.get t.fsp.cap i = Memory.get s.fsp.cap i

/-- R152 and R90: FSP.STAT answers FSP_STATE, FSP_POS and FSP_DLEN in 20 bits and changes nothing else;
its encoding; the answer after reset. -/
def Obligations.StatReportsTheCursors : Prop :=
  (∀ (v : BitVec 96) (d : Span), decode .M ⟨0x21, v, d⟩ = .instr .fspStat) ∧
  (∀ s : State, ∃ r : BitVec 20, exec .fspStat s = .next { s with respM := some (.ok (.fspStatus r)) } ∧
    r.extractLsb' 9 9 = s.fsp.pos ∧ r.extractLsb' 0 9 = s.fsp.dlen ∧
    (r.extractLsb' 18 2).toNat = (match s.fsp.state with
      | .idle => 0
      | .header => 1
      | .data => 2
      | .crcTail => 3)) ∧
  exec .fspStat State.reset = .next { State.reset with respM := some (.ok (.fspStatus 0)) }

/-- R153: FSP.RST sets Idle and both cursors to 0, leaves CAP, answers OK with no result and changes
nothing else, which is what an abort does; its encoding; the next byte that is no start marker is
discarded. -/
def Obligations.RstClearsTheRecord : Prop :=
  (∀ (v : BitVec 96) (d : Span), decode .M ⟨0x2F, v, d⟩ = .instr .fspRst) ∧
  (∀ s : State, exec .fspRst s = .next { s with
    fsp := { s.fsp with state := .idle, pos := 0, dlen := 0 }
    respM := some (.ok .none) }) ∧
  (∀ s t : State, exec .fspRst s = .next t →
    exec (.fspPush 0x41) t = .next { t with respM := some (.ok (.capture false [])) })

/-- Streaming equivalence (spec/42_frame_parser.md section 4, after the document's §8): from any state
whatever, pushing the bytes of a complete frame hands nothing over before its last byte and exactly the
frame at it, leaves the parser cleared, and changes nothing else. -/
def Obligations.StreamedFrameIsHandedOverWhole : Prop :=
  ∀ (s : State) (len : Nat) (frame : Span), Capturable len frame →
    (∀ n < frame.length, ∃ u, fspFeed (frame.take n) s = some (u, [])) ∧
    ∃ t, fspFeed frame s = some (t, [frame]) ∧ t.fsp.state = .idle ∧ t.fsp.pos.toNat = 0 ∧
      t.fsp.dlen.toNat = 0 ∧ t = { s with fsp := t.fsp, respM := t.respM }

/-- Resynchronisation (spec/42_frame_parser.md section 4, after the document's §8): whatever bytes came
before, a complete frame after them is handed over at its last byte. -/
def Obligations.AnyPrefixThenAFrameResynchronises : Prop :=
  ∀ (s : State) (before : Span) (len : Nat) (frame : Span), s.fsp.Inv → Capturable len frame →
    ∃ u t frames, fspFeed before s = some (u, frames) ∧
      fspFeed (before ++ frame) s = some (t, frames ++ [frame])

/-- The hand-over contract (spec/42_frame_parser.md section 4, derived there): what every span handed
over from a state that meets the invariant satisfies. -/
def Obligations.HandedOverSpansMeetTheContract : Prop :=
  ∀ (b : Byte) (s t : State) (g : Span), s.fsp.Inv → exec (.fspPush b) s = .next t →
    t.respM = some (.ok (.capture true g)) →
    ∃ len k, len ≤ 256 ∧ k ≤ 4 ∧ g.length = 13 + len + k ∧
      g.getD 0 0 = 0x26 ∧ g.getD (12 + len + k) 0 = 0x2A ∧
      (∀ i < 13 + len + k, 1 ≤ i → g.getD i 0 ≠ 0x26) ∧
      (∀ i < 12, 1 ≤ i → g.getD i 0 ≠ 0x2A) ∧
      lenField (g.getD 7 0) (g.getD 8 0) (g.getD 9 0) = some len ∧
      (∀ i < 12 + len + k, 12 + len ≤ i → g.getD i 0 ≠ 0x2A)

/-- No push stores outside CAP, for any MAX_FRAME from 13 to 511 and any byte (spec/42_frame_parser.md
section 1, the buffer bound, derived there): from a bounded record every push completes with a bounded
record. The lower bound is the spec's (spec/00_scope.md section 4); the upper bound is the model's, deduced
from the nine bits of FSP_POS, log 23. -/
def Obligations.NoPushLeavesTheCaptureBuffer : Prop :=
  ∀ (maxFrame : Nat) (b : Byte) (f : Fsp), 13 ≤ maxFrame → maxFrame ≤ 511 → f.Bounded maxFrame →
    ∃ f' handed, f.push maxFrame b = .ok (f', handed) ∧ f'.Bounded maxFrame

/-- The complete list of causes of an abort (spec/60_exceptions.md section 1, derived there): from a
state that meets the invariant and is not Idle, a push ends in Idle without handing over exactly for
these. -/
def Obligations.AbortCausesAreComplete : Prop :=
  ∀ (b : Byte) (f : Fsp), f.Inv → f.state ≠ .idle →
    ((∃ f', f.push 273 b = .ok (f', none) ∧ f'.state = .idle) ↔
      b ≠ 0x26 ∧
      ((f.state = .header ∧ b = 0x2A) ∨
       (f.state = .header ∧ f.pos.toNat = 11 ∧ lenField (f.byte 7) (f.byte 8) (f.byte 9) = none) ∨
       (f.state = .crcTail ∧ b ≠ 0x2A ∧ f.pos.toNat = 12 + f.dlen.toNat + 4)))

/-! ## SRB -/

/-- R171: SRB.PUT stores the entry at RING[SRB_HEAD], advances SRB_HEAD modulo 600 and counts up to 600,
answers OK with no result on port P, and changes no other slot and nothing else; on port P only; a full
ring loses its oldest entry; the example. The premise is the legal range of SRB_HEAD. -/
def Obligations.PutStoresAtTheWriteCursor : Prop :=
  (∀ (v : BitVec 96) (d : Span), decode .P ⟨0x30, v, d⟩ = .instr (.srbPut (unpackEntry v)) ∧
    decode .M ⟨0x30, v, d⟩ = .rejected (.wrongPort 0x30)) ∧
  (∀ (e : SampleEntry) (s : State), s.srb.head.toNat < 600 → ∃ t, exec (.srbPut e) s = .next t ∧
    t = { s with srb := t.srb, respP := some (.ok .none) } ∧
    Memory.get t.srb.ring s.srb.head.toNat = some e ∧
    (∀ i, i ≠ s.srb.head.toNat → Memory.get t.srb.ring i = Memory.get s.srb.ring i) ∧
    t.srb.head.toNat = (s.srb.head.toNat + 1) % 600 ∧
    t.srb.count.toNat = min (s.srb.count.toNat + 1) 600) ∧
  (∀ s : State, s.srb.head.toNat < 600 → s.srb.count.toNat = 600 →
    s.srb.newest 599 = s.srb.entry s.srb.head.toNat) ∧
  (∃ t, exec (.srbPut ⟨1000, 1, 2, 3, 4⟩) State.reset = .next t ∧
    Memory.get t.srb.ring 0 = some ⟨1000, 1, 2, 3, 4⟩ ∧ t.srb.head.toNat = 1 ∧
    t.srb.count.toNat = 1)

/-- R173: SRB.LATEST answers RING[(SRB_HEAD + 599) mod 600], or EMPTY when nothing is stored, and changes
nothing else; after reset and after SRB.CLR it answers EMPTY; the entry of the last put is what it
answers; its encoding. -/
def Obligations.LatestAnswersTheLastPut : Prop :=
  (∀ (v : BitVec 96) (d : Span), decode .M ⟨0x31, v, d⟩ = .instr .srbLatest) ∧
  (∀ s : State, s.srb.count.toNat = 0 →
    exec .srbLatest s = .next { s with respM := some (.error .empty) }) ∧
  (∀ s : State, s.srb.count.toNat ≠ 0 → exec .srbLatest s = .next { s with
    respM := some (.ok (.entry (packEntry (s.srb.entry ((s.srb.head.toNat + 599) % 600))))) }) ∧
  exec .srbLatest State.reset = .next { State.reset with respM := some (.error .empty) } ∧
  (∀ s t : State, exec .srbClr s = .next t →
    exec .srbLatest t = .next { t with respM := some (.error .empty) }) ∧
  (∀ (e : SampleEntry) (s t : State), exec (.srbPut e) s = .next t →
    exec .srbLatest t = .next { t with respM := some (.ok (.entry (packEntry e))) })

/-- R176: an offset of zero, or above 600 times the interval as an exact product, is OUT_OF_RANGE
whatever the ring holds, and nothing else changes; an interval of zero leaves no offset in range; the
bound itself is in range. -/
def Obligations.ByOffsetRangeCheckComesFirst : Prop :=
  (∀ (offsetMs now intervalMs : BitVec 32) (s : State),
    offsetMs.toNat = 0 ∨ 600 * intervalMs.toNat < offsetMs.toNat →
    exec (.srbByofs offsetMs now intervalMs) s =
      .next { s with respM := some (.error .outOfRange) }) ∧
  (∀ (offsetMs now : BitVec 32) (s : State), exec (.srbByofs offsetMs now 0) s =
    .next { s with respM := some (.error .outOfRange) }) ∧
  (∀ (offsetMs now intervalMs : BitVec 32) (s : State), offsetMs.toNat ≠ 0 →
    offsetMs.toNat ≤ 600 * intervalMs.toNat →
    exec (.srbByofs offsetMs now intervalMs) s ≠
      .next { s with respM := some (.error .outOfRange) })

/-- R178 and R179, with the target of R177: for an offset in range, the target is now - offset_ms modulo 2^32; the answer
is the first entry, newest first, whose timestamp is at most the target, unsigned, among the SRB_COUNT
stored ones, and EMPTY if there is none; nothing else changes; its encoding. The premise on SRB_COUNT
is its legal range. -/
def Obligations.ByOffsetAnswersTheNewestNotAfterTarget : Prop :=
  (∀ (v : BitVec 96) (d : Span), decode .M ⟨0x32, v, d⟩ =
    .instr (.srbByofs (v.extractLsb' 64 32) (v.extractLsb' 32 32) (v.extractLsb' 0 32))) ∧
  (∀ (offsetMs now intervalMs : BitVec 32) (s : State) (target : Nat),
    offsetMs.toNat ≠ 0 → offsetMs.toNat ≤ 600 * intervalMs.toNat → s.srb.count.toNat ≤ 600 →
    target = (now.toNat + 2 ^ 32 - offsetMs.toNat) % 2 ^ 32 →
    (∀ k < s.srb.count.toNat,
      (s.srb.entry ((s.srb.head.toNat + 600 - 1 - k) % 600)).timestamp.toNat ≤ target →
      (∀ j < k,
        target < (s.srb.entry ((s.srb.head.toNat + 600 - 1 - j) % 600)).timestamp.toNat) →
      exec (.srbByofs offsetMs now intervalMs) s = .next { s with respM := some (.ok (.entry
        (packEntry (s.srb.entry ((s.srb.head.toNat + 600 - 1 - k) % 600))))) }) ∧
    ((∀ k < s.srb.count.toNat,
      target < (s.srb.entry ((s.srb.head.toNat + 600 - 1 - k) % 600)).timestamp.toNat) →
      exec (.srbByofs offsetMs now intervalMs) s =
        .next { s with respM := some (.error .empty) }))

/-- The offset law (spec/43_sample_ring.md section 3, after the document's §8, with the range premise of
its rule and non-decreasing timestamps as the producer's obligation): asking for the time of a stored
entry answers the newest stored entry of that time. -/
def Obligations.OffsetLaw : Prop :=
  ∀ (s : State) (k : Nat) (now intervalMs : BitVec 32), s.srb.Inv → s.srb.Ordered →
    k < s.srb.count.toNat →
    (s.srb.newest k).timestamp.toNat < now.toNat →
    now.toNat - (s.srb.newest k).timestamp.toNat ≤ 600 * intervalMs.toNat →
    ∃ j ≤ k, (s.srb.newest j).timestamp = (s.srb.newest k).timestamp ∧
      (∀ l < j, (s.srb.newest k).timestamp.toNat < (s.srb.newest l).timestamp.toNat) ∧
      exec (.srbByofs (now - (s.srb.newest k).timestamp) now intervalMs) s =
        .next { s with respM := some (.ok (.entry (packEntry (s.srb.newest j)))) }

/-- R180 and R181: SRB.COUNT answers SRB_COUNT and SRB.FULL whether it is 600; both change nothing else;
after `n` puts from reset the count is n up to 600; no operation but SRB.CLR lowers it; a put to a full
ring is answered OK and loses the oldest entry; their encodings. The premise on the ring is its
invariant, needed for the last two only. -/
def Obligations.CountAndFullReportTheCount : Prop :=
  (∀ (v : BitVec 96) (d : Span), decode .M ⟨0x33, v, d⟩ = .instr .srbCount ∧
    decode .M ⟨0x34, v, d⟩ = .instr .srbFull) ∧
  (∀ s : State,
    exec .srbCount s = .next { s with respM := some (.ok (.count s.srb.count)) } ∧
    (s.srb.count.toNat = 600 → exec .srbFull s = .next { s with respM := some (.ok (.full true)) }) ∧
    (s.srb.count.toNat ≠ 600 →
      exec .srbFull s = .next { s with respM := some (.ok (.full false)) })) ∧
  (∀ es : List SampleEntry, ∃ t,
    performAll (es.map (fun e => (Port.P, encode (.srbPut e)))) State.reset = .next t ∧
    t.srb.count.toNat = min es.length 600) ∧
  (∀ (p : Port) (r : Request) (s t : State), s.srb.Inv → perform p r s = .next t → r.op ≠ 0x3F →
    s.srb.count.toNat ≤ t.srb.count.toNat) ∧
  (∀ (e : SampleEntry) (s : State), s.srb.Inv → s.srb.count.toNat = 600 →
    ∃ t, exec (.srbPut e) s = .next t ∧ t.respP = some (.ok .none) ∧
      t.srb.count.toNat = 600 ∧ t.srb.entries = e :: s.srb.entries.dropLast)

/-- R182: SRB.CLR sets SRB_HEAD and SRB_COUNT to 0, leaves RING, answers OK with no result and changes
nothing else; SRB.LATEST then answers EMPTY; its encoding. -/
def Obligations.ClrForgetsEveryEntry : Prop :=
  (∀ (v : BitVec 96) (d : Span), decode .M ⟨0x3F, v, d⟩ = .instr .srbClr) ∧
  (∀ s : State, exec .srbClr s = .next { s with
    srb := { s.srb with head := 0, count := 0 }
    respM := some (.ok .none) }) ∧
  (∀ s t : State, exec .srbClr s = .next t →
    exec .srbLatest t = .next { t with respM := some (.error .empty) })

/-- The ring refines the list of the most recent 600 entries: from a state that meets the invariant, any
sequence of puts leaves the entries, newest first, as the first 600 of the new ones in reverse order
followed by the old ones, and the count as their number (spec/10_state.md section 3,
spec/43_sample_ring.md section 1). -/
def Obligations.RingHoldsTheMostRecentEntries : Prop :=
  ∀ (s : State) (es : List SampleEntry), s.srb.Inv →
    ∃ t, performAll (es.map (fun e => (Port.P, encode (.srbPut e)))) s = .next t ∧
      t.srb.entries = (es.reverse ++ s.srb.entries).take 600 ∧
      t.srb.count.toNat = min (es.length + s.srb.count.toNat) 600

/-- The ordering invariant (spec/10_state.md section 3 (d), spec/70_reset_and_hazards.md section 2): a put
whose timestamp is not below the newest stored one keeps the entries in order. -/
def Obligations.MonotoneProducerKeepsTheRingOrdered : Prop :=
  ∀ (e : SampleEntry) (s t : State), s.srb.Inv → s.srb.Ordered → s.srb.InOrder e →
    exec (.srbPut e) s = .next t → t.srb.Ordered

/-- The reject-when-full variant (spec/43_sample_ring.md section 4), for both values of its open parameter:
a full ring answers FULL and changes nothing, otherwise a put is as in the fixed configuration; an
exhausted scan answers EMPTY, or with SRB_EXHAUST = Oldest the oldest entry if there is one. -/
def Obligations.RejectWhenFullVariant : Prop :=
  (∀ (x : SrbExhaust) (e : SampleEntry) (r : Srb),
    (r.count.toNat = 600 → r.put (.rejectWhenFull x) e = .ok (r, .error .full)) ∧
    (r.count.toNat ≠ 600 → r.put (.rejectWhenFull x) e = r.put .overwriteOldest e)) ∧
  (∀ (offsetMs now intervalMs : BitVec 32) (r : Srb), r.count.toNat ≤ 600 →
    r.byOffset .overwriteOldest offsetMs now intervalMs = .error .empty →
    r.byOffset (.rejectWhenFull .empty) offsetMs now intervalMs = .error .empty ∧
    (r.count.toNat = 0 →
      r.byOffset (.rejectWhenFull .oldest) offsetMs now intervalMs = .error .empty) ∧
    (r.count.toNat ≠ 0 → r.byOffset (.rejectWhenFull .oldest) offsetMs now intervalMs =
      .ok (r.entry ((r.head.toNat + 600 - r.count.toNat) % 600)))) ∧
  (∀ (x : SrbExhaust) (offsetMs now intervalMs : BitVec 32) (r : Srb) (e : SampleEntry),
    r.byOffset .overwriteOldest offsetMs now intervalMs = .ok e →
    r.byOffset (.rejectWhenFull x) offsetMs now intervalMs = .ok e)

/-! ## The wire frame -/

/-- R82 and R85: the LEN field and the checksum field. Three digits give 100, 10 and 1 times their values,
any other byte or a value above 256 makes LEN invalid, and the encoding of every legal length decodes to
it. The four characters of a checksum are the digits of its nibbles, the most significant first; four
received characters of the alphabet stand for the value of their nibbles, any other makes the field
invalid; the example. -/
def Obligations.LenAndChecksumFields : Prop :=
  (∀ d0 d1 d2 : Byte,
    if (0x30 ≤ d0.toNat ∧ d0.toNat ≤ 0x39) ∧ (0x30 ≤ d1.toNat ∧ d1.toNat ≤ 0x39) ∧
        (0x30 ≤ d2.toNat ∧ d2.toNat ≤ 0x39) ∧
        100 * (d0.toNat - 0x30) + 10 * (d1.toNat - 0x30) + (d2.toNat - 0x30) ≤ 256 then
      lenField d0 d1 d2 =
        some (100 * (d0.toNat - 0x30) + 10 * (d1.toNat - 0x30) + (d2.toNat - 0x30))
    else lenField d0 d1 d2 = none) ∧
  (∀ len : Nat, len ≤ 256 → ∃ d0 d1 d2, decimal len 3 = [d0, d1, d2] ∧
    lenField d0 d1 d2 = some len) ∧
  (∀ v : BitVec 16, checksumField v = [hexdigit (v.extractLsb' 12 4), hexdigit (v.extractLsb' 8 4),
    hexdigit (v.extractLsb' 4 4), hexdigit (v.extractLsb' 0 4)]) ∧
  (∀ (t0 t1 t2 t3 : Byte) (a b c d : BitVec 4), hexval t0 = some a → hexval t1 = some b →
    hexval t2 = some c → hexval t3 = some d →
    checksumValue t0 t1 t2 t3 = some (a ++ b ++ c ++ d) ∧ checksumField (a ++ b ++ c ++ d) =
      [t0, t1, t2, t3]) ∧
  (∀ t0 t1 t2 t3 : Byte, hexval t0 = none ∨ hexval t1 = none ∨ hexval t2 = none ∨
    hexval t3 = none → checksumValue t0 t1 t2 t3 = none) ∧
  checksumField 0x31C3 = [0x33, 0x31, 0x43, 0x33]

/-- Build and parse (spec/42_frame_parser.md section 4, spec/30_encoding.md Part B): a frame built from
fields that fit is handed over whole by the parser from any state, and what CRC.SPAN and HEX.DEC answer
for its parts agrees: the received checksum is that of the covered span, and the payload decodes to the
fields' payload. The frame builder and which fields fit are the model's reading of the wire format and of
the covered span (spec/44_consumer_context.md), log 29. -/
def Obligations.BuiltFramesParseBack : Prop :=
  ∀ (x : FrameFields) (s : State), x.fits = true →
    (∃ t, fspFeed (wireFrame x) s = some (t, [wireFrame x]) ∧ t.fsp.state = .idle) ∧
    (wireFrame x).length = 17 + 2 * x.payload.length ∧
    ((wireFrame x).drop 1).take (11 + 2 * x.payload.length) = coveredSpan x ∧
    exec (.hexDec (((wireFrame x).drop 12).take (2 * x.payload.length))) s =
      .next { s with respM := some (.ok (.span x.payload)) } ∧
    ∃ hi lo : Byte,
      exec (.hexDec (((wireFrame x).drop (12 + 2 * x.payload.length)).take 4)) s =
        .next { s with respM := some (.ok (.span [hi, lo])) } ∧
      exec (.crcSpan (((wireFrame x).drop 1).take (11 + 2 * x.payload.length))) s =
        .next { s with respM := some (.ok (.checksum (hi ++ lo))) }
end

