-- ==== Sys2Proof/Laws/Decode.lean ====
section
/-!
SUPPORT. The laws of the packings and of the written bytes: bit vectors read as numbers, so that a packing
identity is linear arithmetic.
-/

namespace Sys2Proof

/-- Concatenation as a number. -/
theorem append_toNat {n m : Nat} (x : BitVec n) (y : BitVec m) :
    (x ++ y).toNat = x.toNat * 2 ^ m + y.toNat := by
  rw [BitVec.toNat_append, ← Nat.shiftLeft_add_eq_or_of_lt y.isLt, Nat.shiftLeft_eq]

/-- A slice as a number. -/
theorem extract_toNat {n : Nat} (lo len : Nat) (x : BitVec n) :
    (x.extractLsb' lo len).toNat = x.toNat / 2 ^ lo % 2 ^ len := by
  simp [BitVec.extractLsb'_toNat, Nat.shiftRight_eq_div_pow]

/-- Unpacking a packed entry gives it back (R88). -/
@[simp] theorem unpackEntry_packEntry (e : SampleEntry) : unpackEntry (packEntry e) = e := by
  obtain ⟨t, c, r, g, b⟩ := e
  have := t.isLt
  have := c.isLt
  have := r.isLt
  have := g.isLt
  have := b.isLt
  simp only [packEntry, unpackEntry, SampleEntry.mk.injEq]
  refine ⟨?_, ?_, ?_, ?_, ?_⟩ <;>
    (apply BitVec.eq_of_toNat_eq; simp only [extract_toNat, append_toNat]; omega)

/-- Every 96-bit pattern is an entry (R88). -/
@[simp] theorem packEntry_unpackEntry (v : BitVec 96) : packEntry (unpackEntry v) = v := by
  apply BitVec.eq_of_toNat_eq
  have := v.isLt
  simp only [packEntry, unpackEntry, extract_toNat, append_toNat]
  omega

/-- A code has the format its operation has. -/
theorem formatOf_code (i : Instr) : formatOf i.code = some i.format := by cases i <;> rfl

@[simp] theorem beBytes_length (n v : Nat) : (beBytes n v).length = n := by
  induction n generalizing v with
  | zero => rfl
  | succ n ih => simp [beBytes, ih]

/-- Reading back the bytes of a number gives its low bytes. -/
theorem beNat_beBytes (n v : Nat) : beNat (beBytes n v) = v % 256 ^ n := by
  induction n with
  | zero => simp [beBytes, beNat, Nat.mod_one]
  | succ n ih =>
    simp only [beBytes, beNat, ih, beBytes_length, BitVec.toNat_ofNat]
    rw [show (2 : Nat) ^ 8 = 256 from rfl, pow_succ, Nat.mod_mul, Nat.mul_comm (256 ^ n)]
    omega

end Sys2Proof
end

