-- ==== Sys2Proof/Laws/Memory.lean ====
section
/-!
SUPPORT. The laws of a storage space: a read after a write, and that a write keeps the canonical form,
in which a space is determined by what it reads.
-/

namespace Sys2Proof.Machine

variable {α : Type}

@[simp] theorem Memory.get_nil (i : Nat) : Memory.get ([] : Memory α) i = none := rfl

@[simp] theorem Memory.get_set_self (m : Memory α) (i : Nat) (v : α) :
    Memory.get (Memory.set m i v) i = some v := by
  induction m with
  | nil => simp [Memory.set, Memory.get]
  | cons c m ih =>
    obtain ⟨j, w⟩ := c
    simp only [Memory.set]
    split
    · simp [Memory.get]
    · split
      · simp [Memory.get]
      · simp [Memory.get, *]

theorem Memory.get_set_of_ne (m : Memory α) {i k : Nat} (v : α) (h : k ≠ i) :
    Memory.get (Memory.set m i v) k = Memory.get m k := by
  induction m with
  | nil => simp [Memory.set, Memory.get, h]
  | cons c m ih =>
    obtain ⟨j, w⟩ := c
    simp only [Memory.set]
    split
    · simp [Memory.get, h]
    · split
      · rename_i hij
        simp [Memory.get, h, hij ▸ h]
      · simp [Memory.get, ih]

theorem Memory.wfFrom_set (size : Nat) (m : Memory α) (i lo : Nat) (v : α)
    (hm : Memory.wfFrom size lo m = true) (hlo : lo ≤ i) (hi : i < size) :
    Memory.wfFrom size lo (Memory.set m i v) = true := by
  induction m generalizing lo with
  | nil => simp [Memory.set, Memory.wfFrom, hlo, hi]
  | cons c m ih =>
    obtain ⟨j, w⟩ := c
    simp only [Memory.wfFrom, Bool.and_eq_true, decide_eq_true_eq] at hm
    obtain ⟨⟨h1, h2⟩, h3⟩ := hm
    simp only [Memory.set]
    split
    · rename_i hij
      simp [Memory.wfFrom, hlo, hi, h2, h3, Nat.succ_le_of_lt hij]
    · split
      · rename_i hij
        subst hij
        simp [Memory.wfFrom, hlo, hi, h3]
      · have hji : j + 1 ≤ i := by omega
        simp [Memory.wfFrom, h1, h2, ih (j + 1) h3 hji]

/-- A write inside a space keeps its canonical form. -/
theorem Memory.wf_set (size : Nat) (m : Memory α) (i : Nat) (v : α)
    (hm : Memory.wf size m = true) (hi : i < size) :
    Memory.wf size (Memory.set m i v) = true :=
  Memory.wfFrom_set size m i 0 v hm (Nat.zero_le i) hi

theorem Memory.get_of_lt_wfFrom (size : Nat) (m : Memory α) (lo i : Nat)
    (hm : Memory.wfFrom size lo m = true) (hi : i < lo) : Memory.get m i = none := by
  induction m generalizing lo with
  | nil => rfl
  | cons c m ih =>
    obtain ⟨j, w⟩ := c
    simp only [Memory.wfFrom, Bool.and_eq_true, decide_eq_true_eq] at hm
    obtain ⟨⟨h1, _⟩, h3⟩ := hm
    have hij : i ≠ j := by omega
    simp [Memory.get, hij, ih (j + 1) h3 (by omega)]

/-- A space in canonical form lists no element it does not have. -/
theorem Memory.get_of_size_le (size : Nat) (m : Memory α) (lo i : Nat)
    (hm : Memory.wfFrom size lo m = true) (hi : size ≤ i) : Memory.get m i = none := by
  induction m generalizing lo with
  | nil => rfl
  | cons c m ih =>
    obtain ⟨j, w⟩ := c
    simp only [Memory.wfFrom, Bool.and_eq_true, decide_eq_true_eq] at hm
    obtain ⟨⟨_, h2⟩, h3⟩ := hm
    have hij : i ≠ j := by omega
    simp [Memory.get, hij, ih (j + 1) h3]

/-- Two spaces in canonical form that read alike are the same data. -/
theorem Memory.ext_of_wfFrom (size : Nat) (m n : Memory α) (lo : Nat)
    (hm : Memory.wfFrom size lo m = true) (hn : Memory.wfFrom size lo n = true)
    (h : ∀ i, Memory.get m i = Memory.get n i) : m = n := by
  induction m generalizing n lo with
  | nil =>
    cases n with
    | nil => rfl
    | cons c n =>
      have := h c.1
      simp [Memory.get] at this
  | cons c m ih =>
    obtain ⟨j, w⟩ := c
    cases n with
    | nil =>
      have := h j
      simp [Memory.get] at this
    | cons d n =>
      obtain ⟨k, x⟩ := d
      simp only [Memory.wfFrom, Bool.and_eq_true, decide_eq_true_eq] at hm hn
      obtain ⟨⟨_, _⟩, hm⟩ := hm
      obtain ⟨⟨_, _⟩, hn⟩ := hn
      have hjk : j = k := by
        rcases Nat.lt_trichotomy j k with hlt | heq | hgt
        · have hj := h j
          simp [Memory.get, Nat.ne_of_lt hlt, Memory.get_of_lt_wfFrom size n (k + 1) j hn (by omega)] at hj
        · exact heq
        · have hk := h k
          simp [Memory.get, Nat.ne_of_lt hgt, Memory.get_of_lt_wfFrom size m (j + 1) k hm (by omega)] at hk
      subst hjk
      have hwx : w = x := by
        have := h j
        simpa [Memory.get] using this
      subst hwx
      congr 1
      apply ih n (j + 1) hm hn
      intro i
      by_cases hi : i = j
      · subst hi
        rw [Memory.get_of_lt_wfFrom size m (i + 1) i hm (by omega),
          Memory.get_of_lt_wfFrom size n (i + 1) i hn (by omega)]
      · have := h i
        simpa [Memory.get, hi] using this

/-- Equal memories are equal lists: the canonical form determines the data. -/
theorem Memory.ext_of_wf (size : Nat) (m n : Memory α) (hm : Memory.wf size m = true)
    (hn : Memory.wf size n = true) (h : ∀ i, Memory.get m i = Memory.get n i) : m = n :=
  Memory.ext_of_wfFrom size m n 0 hm hn h

end Sys2Proof.Machine
end

