-- ==== Sys2Proof/Laws/State.lean ====
section
/-!
SUPPORT. What each update of the state leaves as it was: one lemma per field per update, so that no
proof unfolds a record update.
-/

namespace Sys2Proof.Machine

/-! ## Answering on a port -/

@[simp] theorem State.answer_fsp (p : Port) (r : Response) (s : State) :
    (s.answer p r).fsp = s.fsp := by cases p <;> rfl
@[simp] theorem State.answer_srb (p : Port) (r : Response) (s : State) :
    (s.answer p r).srb = s.srb := by cases p <;> rfl
@[simp] theorem State.answer_portM (p : Port) (r : Response) (s : State) :
    (s.answer p r).portM = s.portM := by cases p <;> rfl
@[simp] theorem State.answer_portP (p : Port) (r : Response) (s : State) :
    (s.answer p r).portP = s.portP := by cases p <;> rfl
@[simp] theorem State.answer_turns (p : Port) (r : Response) (s : State) :
    (s.answer p r).turns = s.turns := by cases p <;> rfl
@[simp] theorem State.answer_seq (p : Port) (r : Response) (s : State) :
    (s.answer p r).seq = s.seq := by cases p <;> rfl
@[simp] theorem State.answer_M_respM (r : Response) (s : State) :
    (s.answer .M r).respM = some r := rfl
@[simp] theorem State.answer_M_respP (r : Response) (s : State) :
    (s.answer .M r).respP = s.respP := rfl
@[simp] theorem State.answer_P_respM (r : Response) (s : State) :
    (s.answer .P r).respM = s.respM := rfl
@[simp] theorem State.answer_P_respP (r : Response) (s : State) :
    (s.answer .P r).respP = some r := rfl
@[simp] theorem State.response_answer (p : Port) (r : Response) (s : State) :
    (s.answer p r).response p = some r := by cases p <;> rfl

/-- An answer on port M is the one field it writes. -/
theorem State.answer_M (r : Response) (s : State) : s.answer .M r = { s with respM := some r } := rfl

/-- An answer on port P is the one field it writes. -/
theorem State.answer_P (r : Response) (s : State) : s.answer .P r = { s with respP := some r } := rfl

/-! ## The FSP record -/

@[simp] theorem Fsp.clear_state (f : Fsp) : f.clear.state = .idle := rfl
@[simp] theorem Fsp.clear_cap (f : Fsp) : f.clear.cap = f.cap := rfl
@[simp] theorem Fsp.clear_pos (f : Fsp) : f.clear.pos = 0 := rfl
@[simp] theorem Fsp.clear_dlen (f : Fsp) : f.clear.dlen = 0 := rfl
@[simp] theorem Fsp.restart_state (f : Fsp) : f.restart.state = .header := rfl
@[simp] theorem Fsp.restart_cap (f : Fsp) :
    f.restart.cap = Memory.set f.cap 0 startMarker := rfl
@[simp] theorem Fsp.restart_pos (f : Fsp) : f.restart.pos = 1 := rfl
@[simp] theorem Fsp.restart_dlen (f : Fsp) : f.restart.dlen = 0 := rfl

/-- The bytes of a record depend on CAP alone. -/
theorem Fsp.byte_congr {f g : Fsp} (h : f.cap = g.cap) (i : Nat) : f.byte i = g.byte i := by
  simp [Fsp.byte, h]

@[simp] theorem Fsp.byte_clear (f : Fsp) (i : Nat) : f.clear.byte i = f.byte i := rfl

/-! ## The SRB record -/

@[simp] theorem Srb.clear_ring (r : Srb) : r.clear.ring = r.ring := rfl
@[simp] theorem Srb.clear_head (r : Srb) : r.clear.head = 0 := rfl
@[simp] theorem Srb.clear_count (r : Srb) : r.clear.count = 0 := rfl
@[simp] theorem Srb.clear_entry (r : Srb) (i : Nat) : r.clear.entry i = r.entry i := rfl

end Sys2Proof.Machine
end

