-- ==== Sys2Proof/Laws/Fsp.lean ====
section
/-!
SUPPORT. What a push can do: one equation per rule of spec/42_frame_parser.md, and the one inversion lemma
`Fsp.push_cases` that later proofs cite instead of unfolding `Fsp.push`.
-/

namespace Sys2Proof.Machine

/-- The record after a byte has been stored at CAP[FSP_POS]. -/
def Fsp.stored (b : Byte) (f : Fsp) : Fsp :=
  { f with
    cap := Memory.set f.cap f.pos.toNat b
    pos := BitVec.ofNat 9 (f.pos.toNat + 1) }

@[simp] theorem Fsp.stored_state (b : Byte) (f : Fsp) : (f.stored b).state = f.state := rfl
@[simp] theorem Fsp.stored_dlen (b : Byte) (f : Fsp) : (f.stored b).dlen = f.dlen := rfl
@[simp] theorem Fsp.stored_cap (b : Byte) (f : Fsp) :
    (f.stored b).cap = Memory.set f.cap f.pos.toNat b := rfl

theorem Fsp.stored_pos (b : Byte) (f : Fsp) (h : f.pos.toNat < 511) :
    (f.stored b).pos.toNat = f.pos.toNat + 1 := by
  simp only [Fsp.stored, BitVec.toNat_ofNat]
  omega

@[simp] theorem Fsp.byte_stored_self (b : Byte) (f : Fsp) :
    (f.stored b).byte f.pos.toNat = b := by
  simp [Fsp.byte]

theorem Fsp.byte_stored_of_ne (b : Byte) (f : Fsp) {i : Nat} (h : i ≠ f.pos.toNat) :
    (f.stored b).byte i = f.byte i := by
  simp [Fsp.byte, Memory.get_set_of_ne _ _ h]

/-- The bytes after a store. -/
theorem Fsp.byte_stored (b : Byte) (f : Fsp) (i : Nat) :
    (f.stored b).byte i = if i = f.pos.toNat then b else f.byte i := by
  split
  · rename_i h
    rw [h, Fsp.byte_stored_self]
  · exact Fsp.byte_stored_of_ne b f ‹_›

@[simp] theorem Fsp.byte_restart_zero (f : Fsp) : f.restart.byte 0 = startMarker := by
  simp [Fsp.byte]

theorem Fsp.append_of_lt {maxFrame : Nat} (b : Byte) (f : Fsp) (h : f.pos.toNat < maxFrame) :
    f.append maxFrame b = .ok (f.stored b) := by
  simp [Fsp.append, Fsp.stored, h]

theorem Fsp.append_of_le {maxFrame : Nat} (b : Byte) (f : Fsp) (h : maxFrame ≤ f.pos.toNat) :
    f.append maxFrame b = .error (.capIndex f.pos.toNat) := by
  simp [Fsp.append, Nat.not_lt.mpr h]

theorem startMarker_ne_endMarker : startMarker ≠ endMarker := by decide

/-! ## One equation per rule -/

/-- R141. -/
theorem Fsp.push_start (maxFrame : Nat) (f : Fsp) :
    f.push maxFrame startMarker = .ok (f.restart, none) := by
  simp [Fsp.push]

/-- R142. -/
theorem Fsp.push_idle (maxFrame : Nat) (b : Byte) (f : Fsp) (hb : b ≠ startMarker)
    (hs : f.state = .idle) : f.push maxFrame b = .ok (f, none) := by
  simp [Fsp.push, hb, hs]

/-- R143. -/
theorem Fsp.push_header_end (maxFrame : Nat) (f : Fsp) (hs : f.state = .header) :
    f.push maxFrame endMarker = .ok (f.clear, none) := by
  simp [Fsp.push, startMarker_ne_endMarker.symm, hs, Fsp.pushHeader]

/-- R144. -/
theorem Fsp.push_header_store (maxFrame : Nat) (b : Byte) (f : Fsp) (hb : b ≠ startMarker)
    (he : b ≠ endMarker) (hs : f.state = .header) (hp : f.pos.toNat < maxFrame) :
    f.push maxFrame b = .ok (if (f.stored b).pos.toNat = 12 then (f.stored b).completeHeader
      else f.stored b, none) := by
  simp [Fsp.push, hb, hs, Fsp.pushHeader, he, Fsp.append_of_lt b f hp]

/-- R145. -/
theorem Fsp.push_data_abort (maxFrame : Nat) (b : Byte) (f : Fsp) (hb : b ≠ startMarker)
    (hs : f.state = .data) (hp : maxFrame ≤ f.pos.toNat) :
    f.push maxFrame b = .ok (f.clear, none) := by
  simp [Fsp.push, hb, hs, Fsp.pushData, hp]

/-- R146. -/
theorem Fsp.push_data_store (maxFrame : Nat) (b : Byte) (f : Fsp) (hb : b ≠ startMarker)
    (hs : f.state = .data) (hp : f.pos.toNat < maxFrame) :
    f.push maxFrame b = .ok (if (f.stored b).pos.toNat = 12 + f.dlen.toNat then
      { f.stored b with state := .crcTail } else f.stored b, none) := by
  simp only [Fsp.push, hb, if_false, hs, Fsp.pushData, Nat.not_le.mpr hp, Fsp.append_of_lt b f hp]
  rfl

/-- R147. -/
theorem Fsp.push_tail_abort (maxFrame : Nat) (b : Byte) (f : Fsp) (hb : b ≠ startMarker)
    (he : b ≠ endMarker) (hs : f.state = .crcTail)
    (hp : 12 + f.dlen.toNat + 4 ≤ f.pos.toNat ∨ maxFrame ≤ f.pos.toNat) :
    f.push maxFrame b = .ok (f.clear, none) := by
  simp only [Fsp.push, hb, if_false, hs, Fsp.pushTail, he]
  split
  · rfl
  · simp [hp.resolve_left ‹_›]

/-- R149. -/
theorem Fsp.push_tail_store (maxFrame : Nat) (b : Byte) (f : Fsp) (hb : b ≠ startMarker)
    (he : b ≠ endMarker) (hs : f.state = .crcTail) (hk : f.pos.toNat < 12 + f.dlen.toNat + 4)
    (hp : f.pos.toNat < maxFrame) : f.push maxFrame b = .ok (f.stored b, none) := by
  simp [Fsp.push, hb, hs, Fsp.pushTail, he, Nat.not_le.mpr hk, Nat.not_le.mpr hp,
    Fsp.append_of_lt b f hp]

/-- R148, at or above MAX_FRAME. -/
theorem Fsp.push_tail_end_abort (maxFrame : Nat) (f : Fsp) (hs : f.state = .crcTail)
    (hp : maxFrame ≤ f.pos.toNat) : f.push maxFrame endMarker = .ok (f.clear, none) := by
  simp [Fsp.push, startMarker_ne_endMarker.symm, hs, Fsp.pushTail, Fsp.handOver, hp]

/-- R148. -/
theorem Fsp.push_tail_end (maxFrame : Nat) (f : Fsp) (hs : f.state = .crcTail)
    (hp : f.pos.toNat < maxFrame) : f.push maxFrame endMarker =
      .ok ((f.stored endMarker).clear,
        some ((f.stored endMarker).captured (f.stored endMarker).pos.toNat)) := by
  simp [Fsp.push, startMarker_ne_endMarker.symm, hs, Fsp.pushTail, Fsp.handOver,
    Nat.not_le.mpr hp, Fsp.append_of_lt endMarker f hp]

/-! ## Everything a push can do -/

/-- If a push answers, it restarted, discarded, aborted, stored (in Header, the last header byte, in
Data, in CrcTail) or handed over. -/
theorem Fsp.push_cases {maxFrame : Nat} {b : Byte} {f g : Fsp} {o : Option Span}
    (h : f.push maxFrame b = .ok (g, o)) :
    (b = startMarker ∧ g = f.restart ∧ o = none) ∨
    (b ≠ startMarker ∧ f.state = .idle ∧ g = f ∧ o = none) ∨
    (b ≠ startMarker ∧ f.state ≠ .idle ∧ g = f.clear ∧ o = none) ∨
    (b ≠ startMarker ∧ b ≠ endMarker ∧ f.state = .header ∧ f.pos.toNat < maxFrame ∧ o = none ∧
      g = if (f.stored b).pos.toNat = 12 then (f.stored b).completeHeader else f.stored b) ∨
    (b ≠ startMarker ∧ f.state = .data ∧ f.pos.toNat < maxFrame ∧ o = none ∧
      g = if (f.stored b).pos.toNat = 12 + f.dlen.toNat then
        { f.stored b with state := .crcTail } else f.stored b) ∨
    (b ≠ startMarker ∧ b ≠ endMarker ∧ f.state = .crcTail ∧
      f.pos.toNat < 12 + f.dlen.toNat + 4 ∧ f.pos.toNat < maxFrame ∧ o = none ∧ g = f.stored b) ∨
    (b = endMarker ∧ f.state = .crcTail ∧ f.pos.toNat < maxFrame ∧
      g = (f.stored endMarker).clear ∧
      o = some ((f.stored endMarker).captured (f.stored endMarker).pos.toNat)) := by
  by_cases hb : b = startMarker
  · subst hb
    simp [Fsp.push_start] at h
    exact .inl ⟨rfl, h.1.symm, h.2.symm⟩
  · cases hs : f.state with
    | idle =>
      rw [Fsp.push_idle maxFrame b f hb hs] at h
      simp at h
      exact .inr (.inl ⟨hb, by simp, h.1.symm, h.2.symm⟩)
    | header =>
      by_cases he : b = endMarker
      · subst he
        rw [Fsp.push_header_end maxFrame f hs] at h
        simp at h
        exact .inr (.inr (.inl ⟨hb, by simp, h.1.symm, h.2.symm⟩))
      · by_cases hp : f.pos.toNat < maxFrame
        · rw [Fsp.push_header_store maxFrame b f hb he hs hp] at h
          simp only [Except.ok.injEq, Prod.mk.injEq] at h
          exact .inr (.inr (.inr (.inl ⟨hb, he, rfl, hp, h.2.symm, h.1.symm⟩)))
        · simp [Fsp.push, hb, hs, Fsp.pushHeader, he, Fsp.append, hp] at h
    | data =>
      by_cases hp : f.pos.toNat < maxFrame
      · rw [Fsp.push_data_store maxFrame b f hb hs hp] at h
        simp only [Except.ok.injEq, Prod.mk.injEq] at h
        exact .inr (.inr (.inr (.inr (.inl ⟨hb, rfl, hp, h.2.symm, h.1.symm⟩))))
      · rw [Fsp.push_data_abort maxFrame b f hb hs (Nat.not_lt.mp hp)] at h
        simp at h
        exact .inr (.inr (.inl ⟨hb, by simp, h.1.symm, h.2.symm⟩))
    | crcTail =>
      by_cases he : b = endMarker
      · subst he
        by_cases hp : f.pos.toNat < maxFrame
        · rw [Fsp.push_tail_end maxFrame f hs hp] at h
          simp only [Except.ok.injEq, Prod.mk.injEq] at h
          exact .inr (.inr (.inr (.inr (.inr (.inr ⟨rfl, rfl, hp, h.1.symm, h.2.symm⟩)))))
        · rw [Fsp.push_tail_end_abort maxFrame f hs (Nat.not_lt.mp hp)] at h
          simp at h
          exact .inr (.inr (.inl ⟨hb, by simp, h.1.symm, h.2.symm⟩))
      · by_cases hk : f.pos.toNat < 12 + f.dlen.toNat + 4
        · by_cases hp : f.pos.toNat < maxFrame
          · rw [Fsp.push_tail_store maxFrame b f hb he hs hk hp] at h
            simp at h
            exact .inr (.inr (.inr (.inr (.inr (.inl
              ⟨hb, he, rfl, hk, hp, h.2.symm, h.1.symm⟩)))))
          · rw [Fsp.push_tail_abort maxFrame b f hb he hs (.inr (Nat.not_lt.mp hp))] at h
            simp at h
            exact .inr (.inr (.inl ⟨hb, by simp, h.1.symm, h.2.symm⟩))
        · rw [Fsp.push_tail_abort maxFrame b f hb he hs (.inl (Nat.not_lt.mp hk))] at h
          simp at h
          exact .inr (.inr (.inl ⟨hb, by simp, h.1.symm, h.2.symm⟩))

/-- A push answers unless it is a header byte in a state whose FSP_POS CAP does not have. -/
theorem Fsp.push_answers (maxFrame : Nat) (b : Byte) (f : Fsp)
    (h : f.state = .header → f.pos.toNat < maxFrame) : ∃ g o, f.push maxFrame b = .ok (g, o) := by
  by_cases hb : b = startMarker
  · exact ⟨_, _, hb ▸ Fsp.push_start maxFrame f⟩
  · cases hs : f.state with
    | idle => exact ⟨_, _, Fsp.push_idle maxFrame b f hb hs⟩
    | header =>
      by_cases he : b = endMarker
      · exact ⟨_, _, he ▸ Fsp.push_header_end maxFrame f hs⟩
      · exact ⟨_, _, Fsp.push_header_store maxFrame b f hb he hs (h hs)⟩
    | data =>
      by_cases hp : f.pos.toNat < maxFrame
      · exact ⟨_, _, Fsp.push_data_store maxFrame b f hb hs hp⟩
      · exact ⟨_, _, Fsp.push_data_abort maxFrame b f hb hs (Nat.not_lt.mp hp)⟩
    | crcTail =>
      by_cases he : b = endMarker
      · by_cases hp : f.pos.toNat < maxFrame
        · exact ⟨_, _, he ▸ Fsp.push_tail_end maxFrame f hs hp⟩
        · exact ⟨_, _, he ▸ Fsp.push_tail_end_abort maxFrame f hs (Nat.not_lt.mp hp)⟩
      · by_cases hk : f.pos.toNat < 12 + f.dlen.toNat + 4
        · by_cases hp : f.pos.toNat < maxFrame
          · exact ⟨_, _, Fsp.push_tail_store maxFrame b f hb he hs hk hp⟩
          · exact ⟨_, _, Fsp.push_tail_abort maxFrame b f hb he hs (.inr (Nat.not_lt.mp hp))⟩
        · exact ⟨_, _, Fsp.push_tail_abort maxFrame b f hb he hs (.inl (Nat.not_lt.mp hk))⟩

/-- The LEN field is a value up to 256. -/
theorem lenField_le {d0 d1 d2 : Byte} {len : Nat} (h : lenField d0 d1 d2 = some len) :
    len ≤ 256 := by
  unfold lenField at h
  split at h
  · split at h
    · simp at h; omega
    · simp at h
  · simp at h

/-- Completing a header aborts, or takes the decoded length into FSP_DLEN. -/
theorem Fsp.completeHeader_cases (f : Fsp) :
    (lenField (f.byte 7) (f.byte 8) (f.byte 9) = none ∧ f.completeHeader = f.clear) ∨
    ∃ len, lenField (f.byte 7) (f.byte 8) (f.byte 9) = some len ∧
      f.completeHeader = { f with
        state := if len = 0 then .crcTail else .data
        dlen := BitVec.ofNat 9 len } := by
  unfold Fsp.completeHeader
  cases lenField (f.byte 7) (f.byte 8) (f.byte 9) with
  | none => exact .inl ⟨rfl, rfl⟩
  | some len => exact .inr ⟨len, rfl, rfl⟩

end Sys2Proof.Machine
end

