-- ==== Sys2Proof/Laws/Srb.lean ====
section
/-!
SUPPORT. The laws of the ring: the slots of the stored entries, what a store does to them, and the
backward scan as a search of the entries (spec/10_state.md R34, spec/43_sample_ring.md R171, R178).
-/

namespace Sys2Proof.Machine

/-! ## Slots -/

theorem ringSlot_lt (head k : Nat) : ringSlot head k < 600 := by
  unfold ringSlot; omega

/-- The slot as the spec writes it, in natural numbers. -/
theorem ringSlot_eq (head k : Nat) (hk : k < 600) : ringSlot head k = (head + 600 - 1 - k) % 600 := by
  unfold ringSlot; omega

/-- The newest entry is in the slot before the cursor. -/
theorem ringSlot_zero (head : Nat) : ringSlot head 0 = (head + 599) % 600 := by
  unfold ringSlot; omega

/-- After the cursor advances, the newest slot is the one it left. -/
theorem ringSlot_advance_zero (head : Nat) (h : head < 600) :
    ringSlot ((head + 1) % 600) 0 = head := by
  unfold ringSlot; omega

/-- After the cursor advances, every entry is one older. -/
theorem ringSlot_advance_succ (head k : Nat) :
    ringSlot ((head + 1) % 600) (k + 1) = ringSlot head k := by
  unfold ringSlot; omega

/-- The slot at the cursor is the 600th newest. -/
theorem ringSlot_ne_head (head k : Nat) (hk : k < 599) :
    ringSlot head k ≠ head := by
  unfold ringSlot; omega

theorem ringSlot_oldest (head : Nat) (h : head < 600) : ringSlot head 599 = head := by
  unfold ringSlot; omega

/-! ## Storing -/

/-- The record after a store (R171). -/
def Srb.stored (e : SampleEntry) (r : Srb) : Srb where
  ring := Memory.set r.ring r.head.toNat e
  head := BitVec.ofNat 10 ((r.head.toNat + 1) % 600)
  count := BitVec.ofNat 10 (min (r.count.toNat + 1) 600)

@[simp] theorem Srb.stored_ring (e : SampleEntry) (r : Srb) :
    (r.stored e).ring = Memory.set r.ring r.head.toNat e := rfl

@[simp] theorem Srb.stored_head (e : SampleEntry) (r : Srb) :
    (r.stored e).head.toNat = (r.head.toNat + 1) % 600 := by
  simp only [Srb.stored, BitVec.toNat_ofNat]
  omega

@[simp] theorem Srb.stored_count (e : SampleEntry) (r : Srb) :
    (r.stored e).count.toNat = min (r.count.toNat + 1) 600 := by
  simp only [Srb.stored, BitVec.toNat_ofNat]
  omega

theorem Srb.store_of_lt (e : SampleEntry) (r : Srb) (h : r.head.toNat < 600) :
    r.store e = .ok (r.stored e) := by
  simp [Srb.store, Srb.stored, h]

/-- If a store answers, the cursor was a slot of the ring and the entry stands there. -/
theorem Srb.store_cases {e : SampleEntry} {r r' : Srb} (h : r.store e = .ok r') :
    r.head.toNat < 600 ∧ r' = r.stored e := by
  unfold Srb.store at h
  split at h
  · exact ⟨by assumption, by simpa [Srb.stored] using h.symm⟩
  · simp at h

@[simp] theorem Srb.entry_stored_self (e : SampleEntry) (r : Srb) :
    (r.stored e).entry r.head.toNat = e := by
  simp [Srb.entry]

theorem Srb.entry_stored_of_ne (e : SampleEntry) (r : Srb) {i : Nat} (h : i ≠ r.head.toNat) :
    (r.stored e).entry i = r.entry i := by
  simp [Srb.entry, Memory.get_set_of_ne _ _ h]

/-- The stored entry is the newest. -/
theorem Srb.newest_stored_zero (e : SampleEntry) (r : Srb) (h : r.head.toNat < 600) :
    (r.stored e).newest 0 = e := by
  simp only [Srb.newest, Srb.stored_head, ringSlot_advance_zero _ h, Srb.entry_stored_self]

/-- The other entries are one older each. -/
theorem Srb.newest_stored_succ (e : SampleEntry) (r : Srb) (k : Nat) (hk : k < 599) :
    (r.stored e).newest (k + 1) = r.newest k := by
  simp only [Srb.newest, Srb.stored_head, ringSlot_advance_succ]
  exact Srb.entry_stored_of_ne e r (ringSlot_ne_head _ k hk)

/-- A store keeps the invariant of the ring. -/
theorem Srb.inv_stored (e : SampleEntry) (r : Srb) (h : r.Inv) : (r.stored e).Inv := by
  obtain ⟨h1, h2, h3, h4, h5⟩ := h
  refine ⟨?_, ?_, ?_, ?_, ?_⟩
  · rw [Srb.stored_head]; omega
  · rw [Srb.stored_count]; omega
  · rw [Srb.stored_head, Srb.stored_count]; intro hc; omega
  · exact Memory.wf_set 600 r.ring _ e h4 h1
  · intro k hk
    rw [Srb.stored_count] at hk
    rw [Srb.stored_head, Srb.stored_ring]
    cases k with
    | zero => simp [ringSlot_advance_zero _ h1]
    | succ k =>
      rw [ringSlot_advance_succ, Memory.get_set_of_ne _ _ (ringSlot_ne_head _ k (by omega))]
      exact h5 k (by omega)

/-! ## Queries -/

/-- The scan is the search of the entries from the k-th newest on. -/
theorem Srb.scan_eq_find (r : Srb) (target : BitVec 32) (k n : Nat) :
    r.scan target k n = ((List.range' k n).map r.newest).find?
      (fun e => decide (e.timestamp.toNat ≤ target.toNat)) := by
  induction n generalizing k with
  | zero => rfl
  | succ n ih =>
    simp only [Srb.scan, List.range'_succ, List.map_cons, List.find?_cons]
    split
    · simp [*]
    · simp [*]

/-- If the scan finds an entry it is the newest one not after the target. -/
theorem Srb.scan_eq_some (r : Srb) (target : BitVec 32) {k n : Nat} {j : Nat} (h1 : k ≤ j)
    (h2 : j < k + n) (hj : (r.newest j).timestamp.toNat ≤ target.toNat)
    (hl : ∀ l, k ≤ l → l < j → target.toNat < (r.newest l).timestamp.toNat) :
    r.scan target k n = some (r.newest j) := by
  induction n generalizing k with
  | zero => omega
  | succ n ih =>
    by_cases hkj : k = j
    · subst hkj
      simp [Srb.scan, hj]
    · have := hl k (Nat.le_refl k) (by omega)
      simp only [Srb.scan, Nat.not_le.mpr this, if_false]
      exact ih (by omega) (by omega) (fun l hl1 hl2 => hl l (by omega) hl2)

/-- The scan finds nothing exactly when every entry is after the target. -/
theorem Srb.scan_eq_none (r : Srb) (target : BitVec 32) {k n : Nat}
    (h : ∀ l, k ≤ l → l < k + n → target.toNat < (r.newest l).timestamp.toNat) :
    r.scan target k n = none := by
  induction n generalizing k with
  | zero => rfl
  | succ n ih =>
    simp only [Srb.scan, Nat.not_le.mpr (h k (Nat.le_refl k) (by omega)), if_false]
    exact ih (fun l h1 h2 => h l (by omega) (by omega))

/-- An offset in range: the scan decides. -/
theorem Srb.byOffset_in_range (policy : SrbPolicy) (offsetMs now intervalMs : BitVec 32) (r : Srb)
    (h0 : offsetMs.toNat ≠ 0) (h1 : offsetMs.toNat ≤ 600 * intervalMs.toNat) :
    r.byOffset policy offsetMs now intervalMs =
      match r.scan (now - offsetMs) 0 r.count.toNat with
      | some e => .ok e
      | none => r.exhausted policy := by
  unfold Srb.byOffset
  rw [if_neg h0]
  exact if_neg (Nat.not_lt.mpr h1)

/-- An offset out of range. -/
theorem Srb.byOffset_out_of_range (policy : SrbPolicy) (offsetMs now intervalMs : BitVec 32) (r : Srb)
    (h : offsetMs.toNat = 0 ∨ 600 * intervalMs.toNat < offsetMs.toNat) :
    r.byOffset policy offsetMs now intervalMs = .error .outOfRange := by
  unfold Srb.byOffset
  split
  · rfl
  · simp [h.resolve_left ‹_›]

end Sys2Proof.Machine
end

