-- ==== Sys2Proof/Laws/Exec.lean ====
section
/-!
SUPPORT. What each operation does to the machine: `exec` of each constructor, once, in the form later
proofs rewrite with.
-/

namespace Sys2Proof.Machine

theorem exec_crcStep (acc : BitVec 16) (b : Byte) (s : State) :
    exec (.crcStep acc b) s = .next (s.answer .M (.ok (.checksum (crcUpdate acc b)))) := rfl

theorem exec_crcSpan (d : Span) (s : State) :
    exec (.crcSpan d) s = .next (s.answer .M (.ok (.checksum (crc16 d)))) := rfl

theorem exec_hexEncb (b : Byte) (s : State) :
    exec (.hexEncb b) s = .next (s.answer .M (.ok (.chars (hexHigh b) (hexLow b)))) := rfl

theorem exec_hexDecp (cHi cLo : Byte) (s : State) :
    exec (.hexDecp cHi cLo) s = .next (s.answer .M (Response.of .byte (hexPair cHi cLo))) := rfl

theorem exec_hexEnc (d : Span) (s : State) :
    exec (.hexEnc d) s = .next (s.answer .M (.ok (.span (hexEncode d)))) := rfl

theorem exec_hexDec (d : Span) (s : State) :
    exec (.hexDec d) s = .next (s.answer .M (Response.of .span (hexDecode d))) := rfl

/-- A push that answers. -/
theorem exec_fspPush {b : Byte} {s : State} {f : Fsp} {o : Option Span}
    (h : s.fsp.push 273 b = .ok (f, o)) : exec (.fspPush b) s =
      .next { s with fsp := f, respM := some (.ok (captureResult o)) } := by
  show execFspPush b s = _
  unfold execFspPush
  rw [show blockParams.maxFrame = 273 from rfl, h]
  rfl

/-- What a push that answers came from. -/
theorem exec_fspPush_cases {b : Byte} {s t : State} (h : exec (.fspPush b) s = .next t) :
    ∃ f o, s.fsp.push 273 b = .ok (f, o) ∧
      t = { s with fsp := f, respM := some (.ok (captureResult o)) } := by
  cases hp : s.fsp.push 273 b with
  | error e =>
    exfalso
    have h' : execFspPush b s = .next t := h
    unfold execFspPush at h'
    rw [show blockParams.maxFrame = 273 from rfl, hp] at h'
    simp at h'
  | ok x =>
    rw [exec_fspPush (f := x.1) (o := x.2) hp] at h
    exact ⟨x.1, x.2, rfl, (Host.Outcome.next.inj h).symm⟩

theorem exec_fspStat (s : State) :
    exec .fspStat s = .next (s.answer .M (.ok (.fspStatus (packStatus s.fsp)))) := rfl

theorem exec_fspRst (s : State) :
    exec .fspRst s = .next { s with fsp := s.fsp.clear, respM := some (.ok .none) } := rfl

/-- A put with the cursor in the ring. -/
theorem exec_srbPut (e : SampleEntry) (s : State) (h : s.srb.head.toNat < 600) :
    exec (.srbPut e) s = .next { s with srb := s.srb.stored e, respP := some (.ok .none) } := by
  show execSrbPut e s = _
  unfold execSrbPut
  rw [show blockParams.srbPolicy = .overwriteOldest from rfl]
  simp only [Srb.put, Srb.store_of_lt e s.srb h]
  rfl

/-- What a put that answers came from. -/
theorem exec_srbPut_cases {e : SampleEntry} {s t : State} (h : exec (.srbPut e) s = .next t) :
    s.srb.head.toNat < 600 ∧
      t = { s with srb := s.srb.stored e, respP := some (.ok .none) } := by
  by_cases hh : s.srb.head.toNat < 600
  · rw [exec_srbPut e s hh] at h
    exact ⟨hh, (Host.Outcome.next.inj h).symm⟩
  · exfalso
    have h' : execSrbPut e s = .next t := h
    unfold execSrbPut at h'
    rw [show blockParams.srbPolicy = .overwriteOldest from rfl] at h'
    simp [Srb.put, Srb.store, hh] at h'

theorem exec_srbLatest (s : State) :
    exec .srbLatest s = .next (s.answer .M (Response.of entryResult s.srb.latest)) := rfl

theorem exec_srbByofs (offsetMs now intervalMs : BitVec 32) (s : State) :
    exec (.srbByofs offsetMs now intervalMs) s = .next (s.answer .M (Response.of entryResult
      (s.srb.byOffset .overwriteOldest offsetMs now intervalMs))) := rfl

theorem exec_srbCount (s : State) :
    exec .srbCount s = .next (s.answer .M (.ok (.count s.srb.count))) := rfl

theorem exec_srbFull (s : State) :
    exec .srbFull s = .next (s.answer .M (.ok (.full s.srb.isFull))) := rfl

theorem exec_srbClr (s : State) :
    exec .srbClr s = .next { s with srb := s.srb.clear, respM := some (.ok .none) } := rfl

end Sys2Proof.Machine
end

