-- ==== Sys2Proof/Laws/PerInstr.lean ====
section
/-!
SUPPORT. The statement made of every operation, one lemma for each constructor: the transaction it is
encoded as carries exactly the operand group of its format (spec/30_encoding.md R70, R71).
-/

namespace Sys2Proof.Laws.Canonical

/-- The encoding of an operation fits its format: no operand bit above the group of the format, and a
span for format S only. -/
def Statement (i : Instr) : Prop := (encode i).fits i.format = true

theorem crcStep (acc : BitVec 16) (b : Byte) : Statement (.crcStep acc b) := by
  have := acc.isLt
  have := b.isLt
  show (decide (((acc ++ b).setWidth 96).toNat < 2 ^ 24) && true) = true
  rw [Bool.and_true, decide_eq_true_eq, BitVec.toNat_setWidth, append_toNat]
  omega

theorem crcSpan (data : Span) : Statement (.crcSpan data) := rfl

theorem hexEncb (b : Byte) : Statement (.hexEncb b) := by
  have := b.isLt
  show (decide ((b.setWidth 96).toNat < 2 ^ 8) && true) = true
  rw [Bool.and_true, decide_eq_true_eq, BitVec.toNat_setWidth]
  omega

theorem hexDecp (cHi cLo : Byte) : Statement (.hexDecp cHi cLo) := by
  have := cHi.isLt
  have := cLo.isLt
  show (decide (((cHi ++ cLo).setWidth 96).toNat < 2 ^ 16) && true) = true
  rw [Bool.and_true, decide_eq_true_eq, BitVec.toNat_setWidth, append_toNat]
  omega

theorem hexEnc (data : Span) : Statement (.hexEnc data) := rfl

theorem hexDec (text : Span) : Statement (.hexDec text) := rfl

theorem fspPush (b : Byte) : Statement (.fspPush b) := hexEncb b

theorem fspStat : Statement .fspStat := rfl

theorem fspRst : Statement .fspRst := rfl

theorem srbPut (e : SampleEntry) : Statement (.srbPut e) := by
  show (decide ((packEntry e).toNat < 2 ^ 96) && true) = true
  rw [Bool.and_true, decide_eq_true_eq]
  exact (packEntry e).isLt

theorem srbLatest : Statement .srbLatest := rfl

theorem srbByofs (offsetMs now intervalMs : BitVec 32) :
    Statement (.srbByofs offsetMs now intervalMs) := by
  show (decide ((packQuery offsetMs now intervalMs).toNat < 2 ^ 96) && true) = true
  rw [Bool.and_true, decide_eq_true_eq]
  exact (packQuery offsetMs now intervalMs).isLt

theorem srbCount : Statement .srbCount := rfl

theorem srbFull : Statement .srbFull := rfl

theorem srbClr : Statement .srbClr := rfl

end Sys2Proof.Laws.Canonical
end

