-- ==== Sys2Proof/Laws/Perform.lean ====
section
/-!
SUPPORT. What serving a port can do: the transaction taken, the operation performed, runs of several
steps, and the calls the pseudo-operations are made of. Later proofs cite these instead of unfolding
`perform`, `State.issue`, `Host.Core.run` or `fspFeed`.
-/

namespace Sys2Proof.Machine

/-! ## One operation -/

/-- An operation that completes writes at most the two records and the answers, and leaves the other
port's answer. -/
theorem exec_next {i : Instr} {s t : State} (h : exec i s = .next t) :
    t = { s with fsp := t.fsp, srb := t.srb, respM := t.respM, respP := t.respP } ∧
    (∃ r, t.response i.port = some r) ∧ (∀ q, q ≠ i.port → t.response q = s.response q) := by
  cases i
  case fspPush b =>
    obtain ⟨f, o, _, rfl⟩ := exec_fspPush_cases h
    exact ⟨rfl, ⟨_, rfl⟩, by intro q hq; cases q <;> first | exact absurd rfl hq | rfl⟩
  case srbPut e =>
    obtain ⟨_, rfl⟩ := exec_srbPut_cases h
    exact ⟨rfl, ⟨_, rfl⟩, by intro q hq; cases q <;> first | exact absurd rfl hq | rfl⟩
  all_goals
    have h := Host.Outcome.next.inj h
    subst h
    exact ⟨rfl, ⟨_, rfl⟩, by intro q hq; cases q <;> first | exact absurd rfl hq | rfl⟩

/-- An operation does not look at what the ports still have to issue. -/
theorem exec_with_ports {i : Instr} {s t : State} (h : exec i s = .next t) (pm pp : List Request)
    (ts : List Port) (n : Nat) :
    exec i { s with portM := pm, portP := pp, turns := ts, seq := n } =
      .next { t with portM := pm, portP := pp, turns := ts, seq := n } := by
  cases i
  case fspPush b =>
    obtain ⟨f, o, h1, rfl⟩ := exec_fspPush_cases h
    exact exec_fspPush (s := { s with portM := pm, portP := pp, turns := ts, seq := n }) h1
  case srbPut e =>
    obtain ⟨h1, rfl⟩ := exec_srbPut_cases h
    exact exec_srbPut e { s with portM := pm, portP := pp, turns := ts, seq := n } h1
  all_goals
    have h := Host.Outcome.next.inj h
    subst h
    rfl

/-! ## One transaction -/

/-- The code of the operation a transaction asks for is the transaction's. -/
theorem code_of_instrOf {r : Request} {i : Instr} (h : instrOf r = some i) : i.code = r.op := by
  obtain ⟨op, v, d⟩ := r
  unfold instrOf at h
  simp only at h
  split at h <;> simp only [Option.some.injEq, reduceCtorEq] at h <;> subst h <;> rfl

/-- A transaction decodes to `i` exactly when its code and operands give `i` and `i` belongs to the
port. -/
theorem decode_eq_instr {p : Port} {r : Request} {i : Instr} :
    decode p r = .instr i ↔ instrOf r = some i ∧ i.port = p := by
  unfold decode
  cases instrOf r with
  | none => simp
  | some j =>
    by_cases hj : j.port = p <;> simp [Instr.issuableOn, hj]
    · rintro rfl; exact hj
    · rintro rfl; exact hj

/-- What performing a transaction can do: the decoded operation, or ILLEGAL_OP. -/
theorem perform_cases {p : Port} {r : Request} {s t : State} (h : perform p r s = .next t) :
    (∃ i, decode p r = .instr i ∧ i.port = p ∧ i.code = r.op ∧ exec i s = .next t) ∨
    ((∀ i, decode p r ≠ .instr i) ∧ t = s.raise p .illegalOp) := by
  unfold perform at h
  split at h
  · rename_i i hi
    obtain ⟨h1, h2⟩ := decode_eq_instr.mp hi
    exact .inl ⟨i, hi, h2, code_of_instrOf h1, h⟩
  · rename_i hd
    exact .inr ⟨by simp [hd], (Host.Outcome.next.inj h).symm⟩

/-- Performing a transaction does not look at what the ports still have to issue. -/
theorem perform_with_ports {p : Port} {r : Request} {s t : State} (h : perform p r s = .next t)
    (pm pp : List Request) (ts : List Port) (n : Nat) :
    perform p r { s with portM := pm, portP := pp, turns := ts, seq := n } =
      .next { t with portM := pm, portP := pp, turns := ts, seq := n } := by
  unfold perform at h ⊢
  split at h
  · exact exec_with_ports h pm pp ts n
  · have h := Host.Outcome.next.inj h
    subst h
    cases p <;> rfl

/-! ## One step -/

/-- What taking a transaction from a port does. -/
theorem issue_cases {s u : State} {p : Port} {r : Request} (h : s.issue = some (p, r, u)) :
    s.queue p = r :: u.queue p ∧ (∀ q, q ≠ p → s.queue q = u.queue q) ∧
    u.fsp = s.fsp ∧ u.srb = s.srb ∧ u.respM = s.respM ∧ u.respP = s.respP := by
  obtain ⟨f, rg, pm, pp, rm, rp, ts, n⟩ := s
  have other : ∀ {p : Port} {a b : Port → List Request}, (∀ q, q ≠ p → a q = b q) ↔
      (p ≠ .M → a .M = b .M) ∧ (p ≠ .P → a .P = b .P) := by
    intro p a b
    exact ⟨fun h => ⟨fun hp => h .M (Ne.symm hp), fun hp => h .P (Ne.symm hp)⟩,
      fun h q hq => by cases q <;> first | exact h.1 (Ne.symm hq) | exact h.2 (Ne.symm hq)⟩
  cases pm <;> cases pp <;> simp only [State.issue, reduceCtorEq] at h
  · simp only [Option.some.injEq, Prod.mk.injEq] at h
    obtain ⟨rfl, rfl, rfl⟩ := h
    simp [State.queue, other]
  · simp only [Option.some.injEq, Prod.mk.injEq] at h
    obtain ⟨rfl, rfl, rfl⟩ := h
    simp [State.queue, other]
  · split at h <;> simp only [Option.some.injEq, Prod.mk.injEq] at h <;>
      obtain ⟨rfl, rfl, rfl⟩ := h <;> cases ts <;> simp [State.queue, State.spend, other]

/-! ## Runs -/

theorem run_zero (M : Host.Core) (s : M.State) : M.run 0 s = .next s := rfl

/-- A run that begins with a step that completes. -/
theorem run_succ_of_next {M : Host.Core} {n : Nat} {s t : M.State} (h : M.step s = .next t) :
    M.run (n + 1) s = M.run n t := by
  rw [Host.Core.run, h]

/-- A run that completes begins with a step that completes. -/
theorem run_succ_cases {M : Host.Core} {n : Nat} {s u : M.State} (h : M.run (n + 1) s = .next u) :
    ∃ t, M.step s = .next t ∧ M.run n t = .next u := by
  rw [Host.Core.run] at h
  split at h
  · exact ⟨_, by assumption, h⟩
  · simp at h
  · simp at h

/-! ## Calls -/

/-- A call of FSP.PUSH. -/
theorem call_fspPush {b : Byte} {s : State} {f : Fsp} {o : Option Span}
    (h : s.fsp.push 273 b = .ok (f, o)) : call (.fspPush b) s =
      some ({ s with fsp := f, respM := some (.ok (captureResult o)) }, .ok (captureResult o)) := by
  unfold call
  rw [exec_fspPush h]
  rfl

/-- FSP.FEED of one byte. -/
theorem fspFeed_singleton {b : Byte} {s : State} {f : Fsp} {o : Option Span}
    (h : s.fsp.push 273 b = .ok (f, o)) : fspFeed [b] s =
      some ({ s with fsp := f, respM := some (.ok (captureResult o)) }, o.toList) := by
  simp only [fspFeed, call_fspPush h, captureResult]
  cases o <;> simp

/-- FSP.FEED of two spans one after the other. -/
theorem fspFeed_append {xs : Span} (ys : Span) {s u : State} {frames : List Span}
    (h : fspFeed xs s = some (u, frames)) :
    fspFeed (xs ++ ys) s = (fspFeed ys u).map (fun r => (r.1, frames ++ r.2)) := by
  induction xs generalizing s frames with
  | nil =>
    simp only [fspFeed, Option.some.injEq, Prod.mk.injEq] at h
    obtain ⟨rfl, rfl⟩ := h
    cases hy : fspFeed ys s <;> simp [hy]
  | cons b xs ih =>
    unfold fspFeed at h
    rw [List.cons_append, fspFeed]
    split at h
    · split at h
      · rename_i hv
        simp only [Option.some.injEq, Prod.mk.injEq] at h
        obtain ⟨rfl, rfl⟩ := h
        rw [ih hv]
        rename_i ready _ _ _ v _
        cases fspFeed ys v with
        | none => rfl
        | some r => cases ready <;> simp
      · simp at h
    · simp at h

end Sys2Proof.Machine
end

