-- ==== Sys2Proof/Tests/Slice0.lean ====
section
/-!
SUPPORT. The model's own tests: the checks of WellFormed refuse an ill-formed term each; words written out
from the spec's encodings decode to what they stand for; one-step results from the vectors of
spec/95_test_vectors.md Parts 2 and 3; and for every obligation with hypotheses a witness that meets
them. Every expected value is the spec's.
-/

namespace Sys2Proof.Tests

set_option synthInstance.maxSize 2000
set_option Elab.async false

open Sys2Proof Sys2Proof.Machine

/-! ## Small states -/

/-- The answer on port M after an operation. -/
def onM (o : Host.Outcome State Fault Refusal) : Option Response :=
  match o with
  | .next t => t.respM
  | _ => none

/-- The answer on port P after an operation. -/
def onP (o : Host.Outcome State Fault Refusal) : Option Response :=
  match o with
  | .next t => t.respP
  | _ => none

/-- FSP_STATE, FSP_POS, FSP_DLEN after an operation. -/
def cursors (o : Host.Outcome State Fault Refusal) : Option (FspState × Nat × Nat) :=
  match o with
  | .next t => some (t.fsp.state, t.fsp.pos.toNat, t.fsp.dlen.toNat)
  | _ => none

/-- SRB_HEAD, SRB_COUNT after an operation. -/
def ringCursors (o : Host.Outcome State Fault Refusal) : Option (Nat × Nat) :=
  match o with
  | .next t => some (t.srb.head.toNat, t.srb.count.toNat)
  | _ => none

/-- Storage that holds the elements of a list from an index on. -/
def cells {α : Type} : Nat → List α → List (Nat × α)
  | _, [] => []
  | i, x :: xs => (i, x) :: cells (i + 1) xs

/-- The 21-byte frame of V-F2, with 4 payload bytes. -/
def frameF2 : Span :=
  [0x26, 0x53, 0x54, 0x4D, 0x41, 0x41, 0x41, 0x30, 0x30, 0x34, 0x30, 0x37, 0x34, 0x46, 0x34, 0x42,
    0x35, 0x46, 0x31, 0x38, 0x2A]

/-- The 17-byte frame of V-F8, with no payload. -/
def frameF8 : Span :=
  [0x26, 0x41, 0x41, 0x41, 0x53, 0x54, 0x4D, 0x30, 0x30, 0x30, 0x31, 0x32, 0x46, 0x43, 0x33, 0x44, 0x2A]

/-- The parser after the first `n` bytes of V-F2. -/
def partF2 (n : Nat) : Fsp where
  state := if n = 0 then .idle else if n < 12 then .header else if n < 16 then .data else .crcTail
  cap := cells 0 (frameF2.take n)
  pos := BitVec.ofNat 9 n
  dlen := if n < 12 then 0 else 4

/-- The machine with that parser. -/
def atF2 (n : Nat) : State := { State.reset with fsp := partF2 n }

/-- A Header one byte short of complete, with these length digits. -/
def headerOf (d0 d1 d2 : Byte) : State :=
  { State.reset with fsp := ⟨.header,
      cells 0 [0x26, 0x41, 0x41, 0x41, 0x53, 0x54, 0x4D, d0, d1, d2, 0x30], 11, 0⟩ }

/-- Cursors with nothing listed in CAP. -/
def cursorsOf (st : FspState) (pos dlen : BitVec 9) : State :=
  { State.reset with fsp := ⟨st, [], pos, dlen⟩ }

/-- The ring holding the given entries, oldest first, since reset. -/
def ringOf (es : List SampleEntry) : State :=
  { State.reset with srb := ⟨cells 0 es, BitVec.ofNat 10 es.length, BitVec.ofNat 10 es.length⟩ }

/-- The ring of V-S6. -/
def ringS6 : State :=
  ringOf [⟨1000, 10, 11, 12, 13⟩, ⟨1100, 20, 21, 22, 23⟩, ⟨1200, 30, 31, 32, 33⟩]

/-- A ring put to `n` times since reset meets its invariant. -/
theorem ring_after_puts (n : Nat) : ∃ r : Srb, r.Inv ∧ r.count.toNat = min n 600 := by
  induction n with
  | zero => exact ⟨Srb.reset, by decide, rfl⟩
  | succ n ih =>
    obtain ⟨r, h1, h2⟩ := ih
    exact ⟨r.stored ⟨0, 0, 0, 0, 0⟩, Srb.inv_stored _ _ h1, by rw [Srb.stored_count, h2]; omega⟩

/-- A full ring that meets its invariant. -/
theorem full_ring : ∃ r : Srb, r.Inv ∧ r.count.toNat = 600 := ring_after_puts 600

/-! ## WellFormed: an ill-formed term for each check -/

theorem test_put_is_not_issuable_on_port_M : (Instr.srbPut ⟨0, 0, 0, 0, 0⟩).issuableOn .M = false := by
  decide

theorem test_latest_is_not_issuable_on_port_P : Instr.srbLatest.issuableOn .P = false := by decide

theorem test_operand_above_its_group_does_not_fit :
    (Request.mk 0x20 0x100 []).operandFits .b = false := by decide

theorem test_span_beside_a_fixed_group_does_not_fit :
    (Request.mk 0x20 0x26 [0x00]).spanFits .b = false := by decide

theorem test_ill_formed_transactions_do_not_fit :
    (Request.mk 0x20 0x100 []).fits .b = false ∧ (Request.mk 0x21 0 [0x00]).fits .z = false := by
  decide

/-! ## Decoding: one word for each operation, from the tables of spec/30_encoding.md R71, R72, R88, R89 -/

theorem test_decode_crcStep :
    decode .M ⟨0b00000001, 0b101110010010101101001011, []⟩ = .instr (.crcStep 0xB92B 0x4B) := by
  decide

theorem test_decode_crcSpan :
    decode .M ⟨0b00000010, 0, [0x4F, 0x4B]⟩ = .instr (.crcSpan [0x4F, 0x4B]) := by decide

theorem test_decode_hexEncb : decode .M ⟨0b00010000, 0b01001111, []⟩ = .instr (.hexEncb 0x4F) := by
  decide

theorem test_decode_hexDecp :
    decode .M ⟨0b00010001, 0b0011010001000110, []⟩ = .instr (.hexDecp 0x34 0x46) := by decide

theorem test_decode_hexEnc : decode .M ⟨0b00010010, 0, [0x9F]⟩ = .instr (.hexEnc [0x9F]) := by decide

theorem test_decode_hexDec :
    decode .M ⟨0b00010011, 0, [0x39, 0x46]⟩ = .instr (.hexDec [0x39, 0x46]) := by decide

theorem test_decode_fspPush : decode .M ⟨0b00100000, 0b00100110, []⟩ = .instr (.fspPush 0x26) := by
  decide

theorem test_decode_fspStat : decode .M ⟨0b00100001, 0, []⟩ = .instr .fspStat := by decide

theorem test_decode_fspRst : decode .M ⟨0b00101111, 0, []⟩ = .instr .fspRst := by decide

theorem test_decode_srbPut :
    decode .P ⟨0b00110000, 0x000003E8000A000B000C000D, []⟩ =
      .instr (.srbPut ⟨1000, 10, 11, 12, 13⟩) := by decide

theorem test_decode_srbLatest : decode .M ⟨0b00110001, 0, []⟩ = .instr .srbLatest := by decide

theorem test_decode_srbByofs :
    decode .M ⟨0b00110010, 0x00000096000004E200000064, []⟩ = .instr (.srbByofs 150 1250 100) := by
  decide

theorem test_decode_srbCount : decode .M ⟨0b00110011, 0, []⟩ = .instr .srbCount := by decide

theorem test_decode_srbFull : decode .M ⟨0b00110100, 0, []⟩ = .instr .srbFull := by decide

theorem test_decode_srbClr : decode .M ⟨0b00111111, 0, []⟩ = .instr .srbClr := by decide

/-- V-S29, V-S30. -/
theorem test_decode_rejects_by_name :
    decode .M ⟨0x35, 0, []⟩ = .rejected (.reservedCode 0x35) ∧
    decode .M ⟨0x00, 0, []⟩ = .rejected (.reservedCode 0x00) ∧
    decode .P ⟨0x31, 0, []⟩ = .rejected (.wrongPort 0x31) ∧
    decode .M ⟨0x30, 0, []⟩ = .rejected (.wrongPort 0x30) := by decide

theorem test_bytes_that_are_no_transaction :
    decodeBytes .M [] = .rejected .noCode ∧ decodeBytes .M [0x20] = .rejected .shortOperand ∧
    decodeBytes .M [0x20, 0x26, 0x00] = .rejected .longOperand ∧
    decodeBytes .M [0x03, 0x00] = .rejected (.reservedCode 0x03) := by decide

/-- An opcode-table word of one byte: the operand group is zeros. -/
theorem test_table_words :
    decodeTableWord 8 0x01 = some (.crcStep 0 0) ∧
    decodeTableWord 8 0x30 = some (.srbPut ⟨0, 0, 0, 0, 0⟩) ∧
    decodeTableWord 8 0x32 = some (.srbByofs 0 0 0) ∧ decodeTableWord 8 0x3E = none := by decide

/-! ## One step: the vectors of spec/95_test_vectors.md -/

/-- V-C10, V-C5. -/
theorem test_crcStep : onM (exec (.crcStep 0x1234 0x56) State.reset) = some (.ok (.checksum 0x3C40)) ∧
    onM (exec (.crcStep 0xFFFF 0x00) State.reset) = some (.ok (.checksum 0xE1F0)) := by decide +kernel

/-- V-C33. -/
theorem test_crcSpan : onM (exec (.crcSpan [0x31, 0x32, 0x33, 0x34, 0x35, 0x36, 0x37, 0x38, 0x39])
    State.reset) = some (.ok (.checksum 0x31C3)) := by decide +kernel

/-- V-C34. -/
theorem test_crcSpan_ok :
    onM (exec (.crcSpan [0x4F, 0x4B]) State.reset) = some (.ok (.checksum 0xE45D)) := by decide +kernel

/-- The value spec/95_test_vectors.md section 2.1 names for a reflected firmware, with CRC_REFLECT = true. -/
theorem test_crcReflected :
    ([0x31, 0x32, 0x33, 0x34, 0x35, 0x36, 0x37, 0x38, 0x39] : Span).foldl (crcUpdateWith true) 0 =
      0x2189 := by decide +kernel

/-- V-H4. -/
theorem test_hexEncb : onM (exec (.hexEncb 0xA0) State.reset) = some (.ok (.chars 0x41 0x30)) := by
  decide +kernel

/-- V-H25, V-H26. -/
theorem test_hexDecp : onM (exec (.hexDecp 0x34 0x46) State.reset) = some (.ok (.byte 0x4F)) ∧
    onM (exec (.hexDecp 0x46 0x66) State.reset) = some (.error .invalidChar) := by decide +kernel

/-- V-H10. -/
theorem test_hexEnc : onM (exec (.hexEnc [0x00, 0xFF, 0x0A, 0xA0, 0x7F, 0x80]) State.reset) =
    some (.ok (.span [0x30, 0x30, 0x46, 0x46, 0x30, 0x41, 0x41, 0x30, 0x37, 0x46, 0x38, 0x30])) := by
  decide +kernel

/-- V-H5. -/
theorem test_hexDec : onM (exec (.hexDec [0x35, 0x33, 0x35, 0x34, 0x34, 0x31, 0x35, 0x32, 0x35, 0x34])
    State.reset) = some (.ok (.span [0x53, 0x54, 0x41, 0x52, 0x54])) := by decide +kernel

/-- V-H24, V-H17: no partial output; the length is tested first. -/
theorem test_hexDec_rejections :
    onM (exec (.hexDec [0x34, 0x46, 0x34, 0x47]) State.reset) = some (.error .invalidChar) ∧
    onM (exec (.hexDec [0x47]) State.reset) = some (.error .oddLength) := by decide +kernel

/-- V-F1, V-F14: the last header byte, and an end marker in Data. -/
theorem test_fspPush : cursors (exec (.fspPush 0x37) (headerOf 0x30 0x31 0x30)) = some (.data, 12, 10) ∧
    cursors (exec (.fspPush 0x2A) (atF2 12)) = some (.data, 13, 4) := by decide +kernel

/-- V-F2: the hand-over. -/
theorem test_fspPush_hands_over : onM (exec (.fspPush 0x2A) (atF2 20)) =
    some (.ok (.capture true frameF2)) ∧ cursors (exec (.fspPush 0x2A) (atF2 20)) = some (.idle, 0, 0) :=
  by decide +kernel

/-- The packings listed after V-F26. -/
theorem test_fspStat :
    onM (exec .fspStat (cursorsOf .data 16 10)) = some (.ok (.fspStatus 0x8200A)) ∧
    onM (exec .fspStat (cursorsOf .crcTail 22 10)) = some (.ok (.fspStatus 0xC2C0A)) := by decide +kernel

/-- V-F26. -/
theorem test_fspRst : cursors (exec .fspRst (cursorsOf .data 15 10)) = some (.idle, 0, 0) := by decide +kernel

/-- Program 3, step 2. -/
theorem test_srbPut : ringCursors (exec (.srbPut ⟨1000, 10, 11, 12, 13⟩) State.reset) = some (1, 1) ∧
    onP (exec (.srbPut ⟨1000, 10, 11, 12, 13⟩) State.reset) = some (.ok .none) := by decide +kernel

/-- V-S8: the cursor wraps and the count stops at 600. -/
theorem test_srbPut_wraps : ringCursors (exec (.srbPut ⟨60900, 599, 0, 0, 0⟩)
      { State.reset with srb := ⟨[], 599, 599⟩ }) = some (0, 600) ∧
    ringCursors (exec (.srbPut ⟨61000, 600, 0, 0, 0⟩)
      { State.reset with srb := ⟨[], 0, 600⟩ }) = some (1, 600) := by decide +kernel

/-- Program 3, step 3, and V-S1. -/
theorem test_srbLatest : onM (exec .srbLatest (ringOf [⟨1000, 10, 11, 12, 13⟩])) =
      some (.ok (.entry 0x000003E8000A000B000C000D)) ∧
    onM (exec .srbLatest State.reset) = some (.error .empty) := by decide +kernel

/-- Program 3, steps 6 to 8. -/
theorem test_srbByofs :
    onM (exec (.srbByofs 150 1250 100) ringS6) = some (.ok (.entry 0x0000044C0014001500160017)) ∧
    onM (exec (.srbByofs 251 1250 100) ringS6) = some (.error .empty) ∧
    onM (exec (.srbByofs 0 1250 100) ringS6) = some (.error .outOfRange) := by decide +kernel

/-- V-S22, V-S26, V-S27: the target wraps, the product does not. -/
theorem test_srbByofs_wide :
    onM (exec (.srbByofs 1000 500 100) (ringOf [⟨1000, 1, 2, 3, 4⟩])) =
      some (.ok (.entry 0x000003E80001000200030004)) ∧
    onM (exec (.srbByofs 4294967295 4294967295 7158279) (ringOf [⟨1000, 1, 2, 3, 4⟩])) =
      some (.error .empty) ∧
    onM (exec (.srbByofs 4294967295 4294967295 7158278) (ringOf [⟨1000, 1, 2, 3, 4⟩])) =
      some (.error .outOfRange) := by decide +kernel

/-- Program 3, step 9. -/
theorem test_srbCount : onM (exec .srbCount ringS6) = some (.ok (.count 3)) := by decide +kernel

/-- V-S7, V-S8. -/
theorem test_srbFull :
    onM (exec .srbFull { State.reset with srb := ⟨[], 599, 599⟩ }) = some (.ok (.full false)) ∧
    onM (exec .srbFull { State.reset with srb := ⟨[], 0, 600⟩ }) = some (.ok (.full true)) := by decide +kernel

/-- V-S28. -/
theorem test_srbClr : ringCursors (exec .srbClr ringS6) = some (0, 0) := by decide +kernel

/-- V-S29, V-S30: ILLEGAL_OP on the port that presented the code. -/
theorem test_illegal_op : onM (perform .M ⟨0x35, 0, []⟩ State.reset) = some (.error .illegalOp) ∧
    onM (perform .M ⟨0x30, 0, []⟩ State.reset) = some (.error .illegalOp) ∧
    onP (perform .P ⟨0x31, 0, []⟩ State.reset) = some (.error .illegalOp) := by decide +kernel

/-- The first step after a transaction is presented performs it (Program 2, step 1; R171). -/
theorem test_withFetchWord : onM (step (State.reset.withFetchWord 8 0x21)) = some (.ok (.fspStatus 0)) ∧
    ringCursors (step (State.reset.withFetchWord 8 0x30)) = some (1, 1) := by decide +kernel

/-- The fields of V-F2 make the frame of V-F2. -/
theorem test_wireFrame : wireFrame ⟨[0x53, 0x54, 0x4D], [0x41, 0x41, 0x41], 7, [0x4F, 0x4B]⟩ = frameF2 := by
  decide +kernel

/-! ## Witnesses: states and operands that meet the hypotheses of each obligation

Named after the obligation. The states are those above; where an obligation has several clauses, each has
its values, at the boundaries of its ranges. -/

/-- A state that meets the invariant, with both records in use, and transactions waiting. -/
def busy (pm pp : List Request) (ts : List Port) : State :=
  { fsp := partF2 20, srb := ringS6.srb, portM := pm, portP := pp, respM := none, respP := none,
    turns := ts, seq := 0 }

/-- An entry later than those of V-S6 (Program 3, step 11a). -/
def entry1300 : SampleEntry := ⟨1300, 40, 41, 42, 43⟩

/-- A 273-byte frame with 256 payload bytes. -/
def longFrame : Span :=
  [0x26, 0x41, 0x41, 0x41, 0x53, 0x54, 0x4D, 0x32, 0x35, 0x36, 0x39, 0x39] ++ List.replicate 256 0x30 ++
    [0x45, 0x36, 0x39, 0x42, 0x2A]

theorem test_busy_inv (pm pp : List Request) (ts : List Port) : (busy pm pp ts).Inv := by
  have h : (busy [] [] []).Inv := by decide +kernel
  exact h

theorem test_witness_DecodeOfEncodeIsTheOperation :
    Port.M ≠ (Instr.srbPut entry1300).port ∧ Port.P ≠ (Instr.srbCount).port := by decide

theorem test_witness_DecodedTransactionIsTheEncoding :
    decode .M ⟨0x01, 0xB92B4B, []⟩ = .instr (.crcStep 0xB92B 0x4B) ∧
    Request.fits .a ⟨0x01, 0xB92B4B, []⟩ = true ∧
    Request.fits (Instr.crcStep 0xB92B 0x4B).format ⟨0x01, 0xFFFFFF, []⟩ = true := by decide

theorem test_witness_IllegalCodesAnswerIllegalOp :
    (∀ op ∈ [0x00#8, 0x03, 0x0F, 0x14, 0x1F, 0x22, 0x2E, 0x35, 0x3E, 0x40, 0xFF],
      op.toNat = 0 ∨ (0x03 ≤ op.toNat ∧ op.toNat ≤ 0x0F) ∨ (0x14 ≤ op.toNat ∧ op.toNat ≤ 0x1F) ∨
      (0x22 ≤ op.toNat ∧ op.toNat ≤ 0x2E) ∨ (0x35 ≤ op.toNat ∧ op.toNat ≤ 0x3E) ∨ 0x40 ≤ op.toNat) ∧
    (∀ op ∈ [0x01#8, 0x02, 0x10, 0x13, 0x20, 0x21, 0x2F, 0x30, 0x34, 0x3F],
      ¬ (op.toNat = 0 ∨ (0x03 ≤ op.toNat ∧ op.toNat ≤ 0x0F) ∨ (0x14 ≤ op.toNat ∧ op.toNat ≤ 0x1F) ∨
      (0x22 ≤ op.toNat ∧ op.toNat ≤ 0x2E) ∨ (0x35 ≤ op.toNat ∧ op.toNat ≤ 0x3E) ∨
      0x40 ≤ op.toNat)) := by decide

theorem test_witness_EntryPackingIsBijective :
    ringS6.srb.count.toNat ≠ 0 ∧ ∃ t, exec (.srbByofs 150 1250 100) ringS6 = .next t ∧
      t.respM = some (.ok (.entry 0x0000044C0014001500160017)) := by
  refine ⟨by decide, _, rfl, by decide +kernel⟩

theorem test_witness_StepRunsTheDecodedOperation :
    (busy [encode .srbLatest] [] []).portM = encode .srbLatest :: [] ∧
    decode .M (encode .srbLatest) = .instr .srbLatest ∧
    (busy [encode .srbLatest] [] []).portP = [] ∧
    (busy [encode .srbLatest] [encode (.srbPut entry1300)] [.M]).portP ≠ [] ∧
    (busy [encode .srbLatest] [encode (.srbPut entry1300)] [.M]).turns = .M :: [] ∧
    decode .P (encode (.srbPut entry1300)) = .instr (.srbPut entry1300) ∧
    (busy [] [encode (.srbPut entry1300)] []).portM = [] ∧
    (busy [encode .srbLatest] [encode (.srbPut entry1300)] [.P]).turns = .P :: [] ∧
    (busy [] [] []).portM = [] ∧ (busy [] [] []).portP = [] := by decide +kernel

theorem test_witness_ConcurrentPutAndLatestHaveTwoOutcomes :
    (busy [encode .srbLatest] [encode (.srbPut entry1300)] []).srb.Inv ∧
    (busy [encode .srbLatest] [encode (.srbPut entry1300)] []).srb.count.toNat ≠ 0 ∧
    (busy [encode .srbLatest] [encode (.srbPut entry1300)] []).portM = [encode .srbLatest] ∧
    (busy [encode .srbLatest] [encode (.srbPut entry1300)] []).portP = [encode (.srbPut entry1300)] :=
  ⟨(test_busy_inv _ _ _).2, by decide, rfl, rfl⟩

theorem test_witness_RunsInterleaveThePortsInOrder :
    ∃ t, Host.Core.run Sys2Proof.core 1
      (busy [encode .srbLatest] [encode (.srbPut entry1300)] [.P]) = .next t := ⟨_, rfl⟩

theorem test_witness_PerformAnswersOnItsOwnPort :
    ∃ t, perform .M (encode .srbCount) (busy [] [] []) = .next t := ⟨_, rfl⟩

theorem test_witness_StepKeepsTheInvariant :
    (busy [encode .fspStat] [] []).Inv ∧ ∃ t, step (busy [encode .fspStat] [] []) = .next t :=
  ⟨test_busy_inv _ _ _, _, rfl⟩

theorem test_witness_InvariantStatesNeverStop : (busy [] [] []).Inv := test_busy_inv _ _ _

theorem test_witness_FirstAnswersAfterReset :
    (State.reset.fsp.state = .idle ∧ State.reset.fsp.pos = 0 ∧ State.reset.fsp.dlen = 0 ∧
      State.reset.srb.head = 0 ∧ State.reset.srb.count = 0) ∧
    (0x2A : Byte) ≠ 0x26 ∧ (60000#32).toNat ≠ 0 ∧ (60000#32).toNat ≤ 600 * (100#32).toNat := by decide

/-- The two differ in CAP at FSP_POS and in a ring slot no entry is in. -/
theorem test_witness_UnspecifiedContentsAreUnobservable :
    (atF2 12).Inv ∧ ({ atF2 12 with
      fsp := { partF2 12 with cap := cells 0 (frameF2.take 12 ++ [0x99]) }
      srb := ⟨[(599, entry1300)], 0, 0⟩ } : State).Inv ∧
    (atF2 12).Alike { atF2 12 with
      fsp := { partF2 12 with cap := cells 0 (frameF2.take 12 ++ [0x99]) }
      srb := ⟨[(599, entry1300)], 0, 0⟩ } := by
  refine ⟨by decide +kernel, by decide +kernel, rfl, rfl, rfl, by decide +kernel, rfl, rfl, ?_, rfl⟩
  intro k hk
  exact absurd hk (Nat.not_lt_zero k)

theorem test_witness_PureOperationsOnlyAnswer :
    (∀ b, Instr.srbLatest ≠ .fspPush b) ∧ Instr.srbLatest ≠ .fspRst ∧
    (∀ e, Instr.srbLatest ≠ .srbPut e) ∧ Instr.srbLatest ≠ .srbClr ∧
    (busy [encode .srbCount] [] []).fsp = (busy [] [] []).fsp ∧
    (busy [encode .srbCount] [] []).srb = (busy [] [] []).srb :=
  ⟨nofun, nofun, nofun, nofun, rfl, rfl⟩

theorem test_witness_PortsKeepToTheirOwnState :
    (∃ t, perform .M (encode .srbCount) ringS6 = .next t) ∧ (encode .srbCount).op ≠ 0x3F ∧
    (∃ t, perform .M (encode .srbClr) ringS6 = .next t) ∧
    (∃ t, perform .P (encode .srbCount) ringS6 = .next t) ∧ (encode .srbCount).op ≠ 0x30 :=
  ⟨⟨_, rfl⟩, by decide, ⟨_, rfl⟩, ⟨_, rfl⟩, by decide⟩

theorem test_witness_ErrorAnswersChangeNoState :
    ∃ t, perform .M (encode .srbLatest) State.reset = .next t ∧
      t.response .M = some (.error .empty) := ⟨_, rfl, rfl⟩

theorem test_witness_CrcIsLinearWithZeroResidue :
    ([0x53, 0x54] : Span).length = ([0x52, 0x44] : Span).length := rfl

theorem test_witness_CrcDetectsEverySingleBitFlip :
    0 < ([0x41, 0x34] : Span).length ∧ 1 < ([0x41, 0x34] : Span).length ∧ 0 < 8 ∧ 7 < 8 := by decide

theorem test_witness_HexDigitsAndValues :
    ((9#4).toNat ≤ 9 ∧ 10 ≤ (10#4).toNat) ∧
    (∀ c ∈ [0x30#8, 0x39], 0x30 ≤ c.toNat ∧ c.toNat ≤ 0x39) ∧
    (∀ c ∈ [0x41#8, 0x46], 0x41 ≤ c.toNat ∧ c.toNat ≤ 0x46) ∧
    (∀ c ∈ [0x2F#8, 0x3A, 0x40, 0x47, 0x61], ¬ (0x30 ≤ c.toNat ∧ c.toNat ≤ 0x39) ∧
      ¬ (0x41 ≤ c.toNat ∧ c.toNat ≤ 0x46)) ∧ hexval 0x46 = some 15 := by decide

theorem test_witness_HexDecpAnswersTheByteOrInvalidChar :
    (hexval 0x34 = some 4 ∧ hexval 0x46 = some 15) ∧ hexval 0x66 = none := by decide

theorem test_witness_HexEncAnswersTheText : 1 < ([0x4F, 0x4B] : Span).length := by decide

theorem test_witness_HexDecAnswersTheBytesOrTheRejection :
    ([0x47] : Span).length % 2 = 1 ∧
    (([0x34, 0x47] : Span).length % 2 = 0 ∧ ∃ c ∈ ([0x34, 0x47] : Span), hexval c = none) ∧
    (([0x34, 0x46] : Span).length % 2 = 0 ∧ ∀ c ∈ ([0x34, 0x46] : Span), hexval c ≠ none) := by decide

theorem test_witness_HexCodecIsBijective :
    hexDecode [0x34, 0x46] = .ok [0x4F] ∧ ([0x34, 0x46] : Span).length % 2 = 0 ∧
    hexDecode ([0x34, 0x46] ++ [0x34, 0x42]) = .ok [0x4F, 0x4B] := ⟨rfl, rfl, rfl⟩

theorem test_witness_IdleDiscardsEveryOtherByte :
    State.reset.fsp.state = .idle ∧ (0x2A : Byte) ≠ 0x26 ∧ (0x27 : Byte) ≠ 0x26 := by decide

/-- FSP_POS 1, 10 and 11; a length of 4, 256 and 0, and one of 257 and one with a letter. -/
theorem test_witness_HeaderBytesAreStoredAndTheEleventhDecodesLength :
    (∀ n ∈ [1, 10, 11], (atF2 n).fsp.state = .header ∧ (atF2 n).fsp.pos.toNat = n ∧ n ≤ 11) ∧
    (0x37 : Byte) ≠ 0x26 ∧ (0x37 : Byte) ≠ 0x2A ∧
    cursors (exec (.fspPush 0x37) (atF2 10)) = some (.header, 11, 0) ∧
    cursors (exec (.fspPush 0x37) (atF2 11)) = some (.data, 12, 4) ∧
    cursors (exec (.fspPush 0x37) (headerOf 0x32 0x35 0x36)) = some (.data, 12, 256) ∧
    cursors (exec (.fspPush 0x37) (headerOf 0x30 0x30 0x30)) = some (.crcTail, 12, 0) ∧
    cursors (exec (.fspPush 0x37) (headerOf 0x32 0x35 0x37)) = some (.idle, 0, 0) ∧
    cursors (exec (.fspPush 0x37) (headerOf 0x30 0x61 0x32)) = some (.idle, 0, 0) := by
  decide +kernel

theorem test_witness_DataByteIsStoredWhateverItIs :
    ((atF2 12).fsp.state = .data ∧ (atF2 12).fsp.Inv ∧ (atF2 12).fsp.pos.toNat < 273) ∧
    ((cursorsOf .data 272 256).fsp.state = .data ∧ (cursorsOf .data 272 256).fsp.pos.toNat < 273) ∧
    ((cursorsOf .data 273 256).fsp.state = .data ∧ 273 ≤ (cursorsOf .data 273 256).fsp.pos.toNat) ∧
    (0x2A : Byte) ≠ 0x26 := by decide +kernel

theorem test_witness_TailByteIsStoredUpToFour :
    (∀ f ∈ [(cursorsOf .crcTail 20 4).fsp, (cursorsOf .crcTail 273 400).fsp], f.state = .crcTail ∧
      (12 + f.dlen.toNat + 4 ≤ f.pos.toNat ∨ 273 ≤ f.pos.toNat)) ∧
    (∀ f ∈ [(cursorsOf .crcTail 16 4).fsp, (cursorsOf .crcTail 19 4).fsp,
      (cursorsOf .crcTail 272 400).fsp], f.state = .crcTail ∧
      f.pos.toNat < 12 + f.dlen.toNat + 4 ∧ f.pos.toNat < 273) ∧
    (0x58 : Byte) ≠ 0x26 ∧ (0x58 : Byte) ≠ 0x2A := by decide

theorem test_witness_EndMarkerInTailHandsOver :
    ((atF2 20).fsp.state = .crcTail ∧ (atF2 20).fsp.Inv ∧ (atF2 20).fsp.pos.toNat < 273) ∧
    (cursorsOf .crcTail 272 256).fsp.pos.toNat < 273 ∧
    ((cursorsOf .crcTail 273 256).fsp.state = .crcTail ∧
      273 ≤ (cursorsOf .crcTail 273 256).fsp.pos.toNat) := by decide +kernel

theorem test_witness_PushFrame :
    (∃ t, exec (.fspPush 0x26) (atF2 5) = .next t) ∧ (∃ t, exec (.fspPush 0x41) (atF2 5) = .next t) :=
  ⟨⟨_, rfl⟩, ⟨_, rfl⟩⟩

theorem test_witness_RstClearsTheRecord : ∃ t, exec .fspRst (atF2 12) = .next t := ⟨_, rfl⟩

/-- V-F8, V-F2 and a frame of the greatest length. -/
theorem test_witness_StreamedFrameIsHandedOverWhole :
    Capturable 0 frameF8 ∧ Capturable 4 frameF2 ∧ Capturable 256 longFrame ∧
    0 < frameF8.length ∧ 272 < longFrame.length := by decide +kernel

theorem test_witness_AnyPrefixThenAFrameResynchronises :
    (atF2 12).fsp.Inv ∧ Capturable 0 frameF8 := by decide +kernel

theorem test_witness_HandedOverSpansMeetTheContract :
    (atF2 20).fsp.Inv ∧ ∃ t, exec (.fspPush 0x2A) (atF2 20) = .next t ∧
      t.respM = some (.ok (.capture true frameF2)) :=
  ⟨by decide +kernel, _, rfl, by decide +kernel⟩

theorem test_witness_NoPushLeavesTheCaptureBuffer :
    (Fsp.Bounded 13 (partF2 11) ∧ 13 ≤ 13) ∧ (Fsp.Bounded 273 (partF2 20) ∧ 13 ≤ 273 ∧ 273 ≤ 511) ∧
    Fsp.Bounded 511 (cursorsOf .data 511 500).fsp := by decide +kernel

/-- One record for each cause, and one for none. -/
theorem test_witness_AbortCausesAreComplete :
    (∀ n ∈ [1, 11, 12, 15, 16, 20], (atF2 n).fsp.Inv ∧ (atF2 n).fsp.state ≠ .idle) ∧
    ((headerOf 0x32 0x35 0x37).fsp.Inv ∧
      lenField ((headerOf 0x32 0x35 0x37).fsp.byte 7) ((headerOf 0x32 0x35 0x37).fsp.byte 8)
        ((headerOf 0x32 0x35 0x37).fsp.byte 9) = none) ∧
    (atF2 20).fsp.pos.toNat = 12 + (atF2 20).fsp.dlen.toNat + 4 := by decide +kernel

theorem test_witness_PutStoresAtTheWriteCursor :
    State.reset.srb.head.toNat < 600 ∧ (Srb.mk [] 599 599).head.toNat < 600 ∧
    ((Srb.mk [] 0 600).head.toNat < 600 ∧ (Srb.mk [] 0 600).count.toNat = 600) := by decide

theorem test_witness_LatestAnswersTheLastPut :
    State.reset.srb.count.toNat = 0 ∧ ringS6.srb.count.toNat ≠ 0 ∧
    (∃ t, exec .srbClr ringS6 = .next t) ∧ (∃ t, exec (.srbPut entry1300) ringS6 = .next t) :=
  ⟨rfl, by decide, ⟨_, rfl⟩, ⟨_, rfl⟩⟩

/-- V-S2, V-S12, V-S24, V-S26, V-S27. -/
theorem test_witness_ByOffsetRangeCheckComesFirst :
    (0#32).toNat = 0 ∧ 600 * (100#32).toNat < (60001#32).toNat ∧
    ((60000#32).toNat ≠ 0 ∧ (60000#32).toNat ≤ 600 * (100#32).toNat) ∧
    ((1#32).toNat ≠ 0 ∧ (1#32).toNat ≤ 600 * (1#32).toNat) ∧
    (4294967295#32).toNat ≤ 600 * (7158279#32).toNat ∧
    600 * (7158278#32).toNat < (4294967295#32).toNat := by decide

/-- V-S6: offsets 50, 150 and 250 find the newest, the next and the oldest; 251 finds none; and a wrapped
target (V-S22). -/
theorem test_witness_ByOffsetAnswersTheNewestNotAfterTarget :
    (150#32).toNat ≠ 0 ∧ (150#32).toNat ≤ 600 * (100#32).toNat ∧ ringS6.srb.count.toNat ≤ 600 ∧
    1100 = ((1250#32).toNat + 2 ^ 32 - (150#32).toNat) % 2 ^ 32 ∧
    4294966796 = ((500#32).toNat + 2 ^ 32 - (1000#32).toNat) % 2 ^ 32 ∧
    (∀ x ∈ [(0, 1200), (1, 1100), (2, 1000)], x.1 < ringS6.srb.count.toNat ∧
      (ringS6.srb.entry ((ringS6.srb.head.toNat + 600 - 1 - x.1) % 600)).timestamp.toNat ≤ x.2 ∧
      ∀ j < x.1, x.2 <
        (ringS6.srb.entry ((ringS6.srb.head.toNat + 600 - 1 - j) % 600)).timestamp.toNat) ∧
    (∀ k < ringS6.srb.count.toNat, 999 <
      (ringS6.srb.entry ((ringS6.srb.head.toNat + 600 - 1 - k) % 600)).timestamp.toNat) := by
  decide +kernel

theorem test_witness_OffsetLaw :
    ringS6.srb.Inv ∧ ringS6.srb.Ordered ∧ ∀ k ∈ [0, 2], k < ringS6.srb.count.toNat ∧
      (ringS6.srb.newest k).timestamp.toNat < (1250#32).toNat ∧
      (1250#32).toNat - (ringS6.srb.newest k).timestamp.toNat ≤ 600 * (100#32).toNat := by
  decide +kernel

theorem test_witness_CountAndFullReportTheCount :
    (Srb.mk [] 0 600).count.toNat = 600 ∧ (Srb.mk [] 599 599).count.toNat ≠ 600 ∧
    (ringS6.srb.Inv ∧ (encode (.srbPut entry1300)).op ≠ 0x3F ∧
      ∃ t, perform .P (encode (.srbPut entry1300)) ringS6 = .next t) ∧
    (∃ r : Srb, r.Inv ∧ r.count.toNat = 600) :=
  ⟨rfl, by decide, ⟨by decide +kernel, by decide, _, rfl⟩, full_ring⟩

theorem test_witness_ClrForgetsEveryEntry : ∃ t, exec .srbClr ringS6 = .next t := ⟨_, rfl⟩

theorem test_witness_RingHoldsTheMostRecentEntries :
    State.reset.srb.Inv ∧ ringS6.srb.Inv ∧ ∃ r : Srb, r.Inv ∧ r.count.toNat = 600 :=
  ⟨by decide, by decide +kernel, full_ring⟩

theorem test_witness_MonotoneProducerKeepsTheRingOrdered :
    ringS6.srb.Inv ∧ ringS6.srb.Ordered ∧ ringS6.srb.InOrder entry1300 ∧
    ringS6.srb.InOrder ⟨1200, 0, 0, 0, 0⟩ ∧ State.reset.srb.InOrder entry1300 ∧
    ∃ t, exec (.srbPut entry1300) ringS6 = .next t :=
  ⟨by decide +kernel, by decide +kernel, by decide +kernel, by decide +kernel, by decide, _, rfl⟩

theorem test_witness_RejectWhenFullVariant :
    (Srb.mk [] 0 600).count.toNat = 600 ∧ ringS6.srb.count.toNat ≠ 600 ∧
    (ringS6.srb.count.toNat ≤ 600 ∧ ringS6.srb.count.toNat ≠ 0 ∧
      ringS6.srb.byOffset .overwriteOldest 251 1250 100 = .error .empty) ∧
    (State.reset.srb.count.toNat = 0 ∧
      State.reset.srb.byOffset .overwriteOldest 100 1000 100 = .error .empty) ∧
    ringS6.srb.byOffset .overwriteOldest 150 1250 100 = .ok ⟨1100, 20, 21, 22, 23⟩ :=
  ⟨rfl, by decide, ⟨by decide, by decide, rfl⟩, ⟨rfl, rfl⟩, rfl⟩

theorem test_witness_LenAndChecksumFields :
    ((0x30 ≤ (0x32#8).toNat ∧ (0x32#8).toNat ≤ 0x39) ∧
      100 * (0x32 - 0x30) + 10 * (0x35 - 0x30) + (0x36 - 0x30) ≤ 256 ∧
      ¬ 100 * (0x32 - 0x30) + 10 * (0x35 - 0x30) + (0x37 - 0x30) ≤ 256 ∧
      ¬ (0x30 ≤ (0x3A#8).toNat ∧ (0x3A#8).toNat ≤ 0x39)) ∧
    256 ≤ 256 ∧
    (hexval 0x33 = some 3 ∧ hexval 0x31 = some 1 ∧ hexval 0x43 = some 12) ∧ hexval 0x3F = none := by
  decide

theorem test_witness_BuiltFramesParseBack :
    (FrameFields.mk [0x53, 0x54, 0x4D] [0x41, 0x41, 0x41] 7 [0x4F, 0x4B]).fits = true ∧
    (FrameFields.mk [0x41, 0x41, 0x41] [0x53, 0x54, 0x4D] 99 (List.replicate 128 0x2A)).fits = true ∧
    (FrameFields.mk [0x41, 0x41, 0x41] [0x53, 0x54, 0x4D] 0 []).fits = true := by decide +kernel

end Sys2Proof.Tests
end

section
/-!
PROOFS. The family of spec/30_encoding.md: which codes a port accepts, the packings of an entry and of
the parser's status, the digits of the hex alphabet, and the two text fields of a frame.
-/

namespace Sys2Proof.Machine

/-! ## The codes a port accepts (R72 to R74) -/

/-- The codes of port M (R72, R73). -/
def codesM : List Byte :=
  [0x01#8, 0x02#8, 0x10#8, 0x11#8, 0x12#8, 0x13#8, 0x20#8, 0x21#8, 0x2F#8, 0x31#8, 0x32#8,
    0x33#8, 0x34#8, 0x3F#8]

/-- A reserved code, by the ranges of R74. -/
abbrev ReservedCode (c : Byte) : Prop :=
  c.toNat = 0 ∨ (0x03 ≤ c.toNat ∧ c.toNat ≤ 0x0F) ∨ (0x14 ≤ c.toNat ∧ c.toNat ≤ 0x1F) ∨
    (0x22 ≤ c.toNat ∧ c.toNat ≤ 0x2E) ∨ (0x35 ≤ c.toNat ∧ c.toNat ≤ 0x3E) ∨ 0x40 ≤ c.toNat

/-- A transaction decodes on a port exactly when its code is that of an operation of the port: the
operands decide nothing. -/
theorem decodes_iff_code (p : Port) (r : Request) :
    (∃ i, decode p r = .instr i) ↔ ∃ i : Instr, i.port = p ∧ i.code = r.op := by
  constructor
  · rintro ⟨i, hi⟩
    obtain ⟨hi, hp⟩ := decode_eq_instr.mp hi
    exact ⟨i, hp, code_of_instrOf hi⟩
  · obtain ⟨op, v, d⟩ := r
    rintro ⟨i, rfl, rfl⟩
    cases i <;> exact ⟨_, rfl⟩

/-- Port P decodes the code of SRB.PUT only (R73). -/
theorem decodes_P_iff (r : Request) : (∃ i, decode .P r = .instr i) ↔ r.op = 0x30#8 := by
  rw [decodes_iff_code]
  constructor
  · rintro ⟨i, hp, hc⟩
    cases i
    case srbPut e => exact hc.symm
    all_goals cases hp
  · exact fun h => ⟨.srbPut (unpackEntry 0), rfl, h.symm⟩

/-- Port M decodes the other fourteen codes of the table (R73). -/
theorem decodes_M_iff (r : Request) : (∃ i, decode .M r = .instr i) ↔ r.op ∈ codesM := by
  rw [decodes_iff_code]
  constructor
  · rintro ⟨i, hp, hc⟩
    rw [← hc]
    cases i
    case srbPut e => cases hp
    all_goals simp [Instr.code, codesM]
  · have listed : ∀ c ∈ codesM, (instrOf ⟨c, 0, []⟩).map Instr.port = some .M := by decide
    intro h
    obtain ⟨i, hi, hp⟩ := Option.map_eq_some_iff.mp (listed r.op h)
    exact ⟨i, hp, code_of_instrOf (r := ⟨r.op, 0, []⟩) hi⟩

/-- No operation has a reserved code (R74). -/
theorem code_not_reserved (i : Instr) : ¬ ReservedCode i.code := by
  cases i <;> simp [Instr.code]

theorem reserved_not_decoded {r : Request} (h : ReservedCode r.op) (p : Port) :
    ¬ ∃ i, decode p r = .instr i := by
  rw [decodes_iff_code]
  rintro ⟨i, -, hc⟩
  exact code_not_reserved i (hc ▸ h)

/-- A transaction that does not decode is answered ILLEGAL_OP, and that is all (R73, R74). -/
theorem perform_of_not_decoded {p : Port} {r : Request} (h : ¬ ∃ i, decode p r = .instr i)
    (s : State) : perform p r s = .next (s.raise p .illegalOp) := by
  unfold perform
  split
  · exact absurd ⟨_, ‹_›⟩ h
  · rfl

/-- Settles O4: what does not decode on its port is answered ILLEGAL_OP, and the operations of a port
have exactly the codes listed for it. -/
theorem illegalCodesAnswerIllegalOp : Obligations.IllegalCodesAnswerIllegalOp := by
  unfold Obligations.IllegalCodesAnswerIllegalOp
  refine ⟨decodes_P_iff, decodes_M_iff, ?_, ?_, ?_, rfl⟩
  · intro r s h
    refine perform_of_not_decoded (mt (decodes_M_iff r).mp ?_) s
    rw [h]
    decide
  · intro r s h
    refine perform_of_not_decoded (mt (decodes_P_iff r).mp ?_) s
    intro hp
    rw [hp] at h
    exact absurd h (by decide)
  · intro r s h
    exact ⟨perform_of_not_decoded (reserved_not_decoded h .M) s,
      perform_of_not_decoded (reserved_not_decoded h .P) s⟩

/-! ## The packing of an entry (R88) -/

/-- The newest entry of a ring that stores one (R173). -/
theorem Srb.latest_of_nonempty {r : Srb} (h : r.count.toNat ≠ 0) : r.latest = .ok (r.newest 0) := by
  simp [Srb.latest, Srb.isEmpty, h, Srb.newest, ringSlot_zero]

/-- What the scan finds is one of the entries it walks (R178). -/
theorem Srb.scan_some {r : Srb} {target : BitVec 32} {k n : Nat} {e : SampleEntry}
    (h : r.scan target k n = some e) : ∃ j, k ≤ j ∧ j < k + n ∧ e = r.newest j := by
  rw [Srb.scan_eq_find] at h
  obtain ⟨j, hj, rfl⟩ := List.mem_map.mp (List.mem_of_find?_eq_some h)
  obtain ⟨h1, h2⟩ := List.mem_range'_1.mp hj
  exact ⟨j, h1, h2, rfl⟩

/-- A query by offset that answers OK answers a stored entry (R178, R179). -/
theorem Srb.byOffset_ok {r : Srb} {offsetMs now intervalMs : BitVec 32} {e : SampleEntry}
    (h : r.byOffset .overwriteOldest offsetMs now intervalMs = .ok e) :
    ∃ k < r.count.toNat, e = r.newest k := by
  by_cases hr : offsetMs.toNat = 0 ∨ 600 * intervalMs.toNat < offsetMs.toNat
  · rw [Srb.byOffset_out_of_range _ _ _ _ _ hr] at h
    cases h
  · obtain ⟨h0, h1⟩ := not_or.mp hr
    rw [Srb.byOffset_in_range _ _ _ _ _ h0 (Nat.not_lt.mp h1)] at h
    split at h
    · rename_i hs
      cases h
      obtain ⟨k, -, hk, rfl⟩ := Srb.scan_some hs
      exact ⟨k, by omega, rfl⟩
    · cases h

/-- An answer OK comes from a value (R76, R77). -/
theorem Response.of_eq_ok {α : Type} {group : α → ResultGroup} {x : Except ErrorStatus α}
    {g : ResultGroup} (h : Response.of group x = .ok g) : ∃ v, x = .ok v ∧ g = group v := by
  cases x with
  | error e => cases h
  | ok v => cases h; exact ⟨v, rfl, rfl⟩

/-- Settles O5: unpacking is the inverse of packing on both sides, and the queries answer the packing
of an entry of the ring. -/
theorem entryPackingIsBijective : Obligations.EntryPackingIsBijective := by
  unfold Obligations.EntryPackingIsBijective
  refine ⟨?_, packEntry_unpackEntry, fun _ _ => rfl, ?_, ?_⟩
  · intro e
    have h := unpackEntry_packEntry e
    exact ⟨congrArg (·.timestamp) h, congrArg (·.clear) h, congrArg (·.red) h,
      congrArg (·.green) h, congrArg (·.blue) h⟩
  · intro s h
    rw [exec_srbLatest, Srb.latest_of_nonempty h]
    rfl
  · intro offsetMs now intervalMs s t v h hv
    rw [exec_srbByofs] at h
    cases h
    obtain ⟨e, he, hve⟩ := Response.of_eq_ok (Option.some.inj hv)
    cases hve
    obtain ⟨k, hk, rfl⟩ := Srb.byOffset_ok he
    exact ⟨k, hk, rfl⟩

/-! ## The parser's status (R90) -/

theorem packStatus_state (f : Fsp) : (packStatus f).extractLsb' 18 2 = f.state.code :=
  (BitVec.extractLsb'_append_eq_of_le (by decide)).trans BitVec.extractLsb'_append_eq_left

theorem packStatus_pos (f : Fsp) : (packStatus f).extractLsb' 9 9 = f.pos :=
  (BitVec.extractLsb'_append_eq_of_le (by decide)).trans BitVec.extractLsb'_append_eq_right

theorem packStatus_dlen (f : Fsp) : (packStatus f).extractLsb' 0 9 = f.dlen :=
  BitVec.extractLsb'_append_eq_right

/-- Settles O42: the three fields stand in their bits of the status, and the answer is all that
changes. -/
theorem statReportsTheCursors : Obligations.StatReportsTheCursors := by
  unfold Obligations.StatReportsTheCursors
  refine ⟨fun _ _ => rfl, ?_, rfl⟩
  intro s
  refine ⟨packStatus s.fsp, exec_fspStat s, packStatus_pos _, packStatus_dlen _, ?_⟩
  rw [packStatus_state]
  cases s.fsp.state <;> rfl

/-! ## The hex alphabet (R84, R121) -/

/-- An ASCII decimal digit (R81). -/
abbrev DecimalDigit (c : Byte) : Prop := 0x30 ≤ c.toNat ∧ c.toNat ≤ 0x39

/-- A letter of the hex alphabet (R84). -/
abbrev HexLetter (c : Byte) : Prop := 0x41 ≤ c.toNat ∧ c.toNat ≤ 0x46

theorem hexdigit_toNat_of_le {n : BitVec 4} (h : n.toNat ≤ 9) :
    (hexdigit n).toNat = 0x30 + n.toNat := by
  simp only [hexdigit, h, if_true, BitVec.toNat_ofNat]
  omega

theorem hexdigit_toNat_of_ge {n : BitVec 4} (h : 10 ≤ n.toNat) :
    (hexdigit n).toNat = 0x41 + (n.toNat - 10) := by
  have := n.isLt
  simp only [hexdigit, show ¬ n.toNat ≤ 9 by omega, if_false, BitVec.toNat_ofNat]
  omega

theorem hexval_of_digit {c : Byte} (h : DecimalDigit c) :
    ∃ n, hexval c = some n ∧ n.toNat = c.toNat - 0x30 := by
  refine ⟨_, if_pos h, ?_⟩
  rw [BitVec.toNat_ofNat]
  omega

theorem hexval_of_letter {c : Byte} (h : HexLetter c) :
    ∃ n, hexval c = some n ∧ n.toNat = c.toNat - 0x41 + 10 := by
  have hd : ¬ DecimalDigit c := by omega
  refine ⟨_, (if_neg hd).trans (if_pos h), ?_⟩
  rw [BitVec.toNat_ofNat]
  omega

theorem hexval_of_neither {c : Byte} (hd : ¬ DecimalDigit c) (hl : ¬ HexLetter c) :
    hexval c = none :=
  (if_neg hd).trans (if_neg hl)

/-- The value of a nibble's digit is the nibble. -/
@[simp] theorem hexval_hexdigit (n : BitVec 4) : hexval (hexdigit n) = some n := by
  have := n.isLt
  by_cases h : n.toNat ≤ 9
  · have hn := hexdigit_toNat_of_le h
    obtain ⟨m, hm, hv⟩ := hexval_of_digit (c := hexdigit n) (by omega)
    rw [hm, BitVec.eq_of_toNat_eq (x := m) (y := n) (by omega)]
  · have hn := hexdigit_toNat_of_ge (n := n) (by omega)
    obtain ⟨m, hm, hv⟩ := hexval_of_letter (c := hexdigit n) (by omega)
    rw [hm, BitVec.eq_of_toNat_eq (x := m) (y := n) (by omega)]

/-- The digit of a character's value is the character. -/
theorem hexdigit_of_hexval {c : Byte} {n : BitVec 4} (h : hexval c = some n) : hexdigit n = c := by
  apply BitVec.eq_of_toNat_eq
  by_cases hd : DecimalDigit c
  · obtain ⟨m, hm, hv⟩ := hexval_of_digit hd
    cases h.symm.trans hm
    rw [hexdigit_toNat_of_le (by omega)]
    omega
  by_cases hl : HexLetter c
  · obtain ⟨m, hm, hv⟩ := hexval_of_letter hl
    cases h.symm.trans hm
    rw [hexdigit_toNat_of_ge (by omega)]
    omega
  · cases h.symm.trans (hexval_of_neither hd hl)

/-- Settles O28: the values of the digits and characters, by the ranges of the alphabet. -/
theorem hexDigitsAndValues : Obligations.HexDigitsAndValues := by
  unfold Obligations.HexDigitsAndValues
  exact ⟨fun n => ⟨hexdigit_toNat_of_le, hexdigit_toNat_of_ge⟩,
    fun c => ⟨hexval_of_digit, hexval_of_letter, hexval_of_neither⟩, hexval_hexdigit,
    fun c n => hexdigit_of_hexval, by decide +kernel, fun b => rfl⟩

/-! ## The LEN field (R82) -/

theorem digitValue_of_digit {b : Byte} (h : DecimalDigit b) :
    digitValue b = some (b.toNat - 0x30) := if_pos h

theorem digitValue_of_not_digit {b : Byte} (h : ¬ DecimalDigit b) : digitValue b = none := if_neg h

/-- The character of a decimal digit has its value. -/
theorem digitValue_ofNat {n : Nat} (h : n < 10) :
    digitValue (BitVec.ofNat 8 (0x30 + n)) = some n := by
  have hn : (BitVec.ofNat 8 (0x30 + n)).toNat = 0x30 + n := by
    rw [BitVec.toNat_ofNat]
    omega
  rw [digitValue_of_digit (by omega), hn, Nat.add_sub_cancel_left]

/-- Three digits stand for their decimal value, if that is at most 256. -/
theorem lenField_of_digits {d0 d1 d2 : Byte} {h t u : Nat} (h0 : digitValue d0 = some h)
    (h1 : digitValue d1 = some t) (h2 : digitValue d2 = some u) :
    lenField d0 d1 d2 =
      if 100 * h + 10 * t + u ≤ 256 then some (100 * h + 10 * t + u) else none := by
  simp only [lenField, h0, h1, h2]

/-- A byte that is no digit makes the field invalid. -/
theorem lenField_of_not_digit {d0 d1 d2 : Byte}
    (h : digitValue d0 = none ∨ digitValue d1 = none ∨ digitValue d2 = none) :
    lenField d0 d1 d2 = none := by
  unfold lenField
  split
  · simp_all
  · rfl

/-- The LEN field of any three bytes (R82). -/
theorem lenField_eq_ite (d0 d1 d2 : Byte) :
    if DecimalDigit d0 ∧ DecimalDigit d1 ∧ DecimalDigit d2 ∧
        100 * (d0.toNat - 0x30) + 10 * (d1.toNat - 0x30) + (d2.toNat - 0x30) ≤ 256 then
      lenField d0 d1 d2 =
        some (100 * (d0.toNat - 0x30) + 10 * (d1.toNat - 0x30) + (d2.toNat - 0x30))
    else lenField d0 d1 d2 = none := by
  by_cases hd : DecimalDigit d0 ∧ DecimalDigit d1 ∧ DecimalDigit d2
  · obtain ⟨h0, h1, h2⟩ := hd
    rw [lenField_of_digits (digitValue_of_digit h0) (digitValue_of_digit h1)
      (digitValue_of_digit h2)]
    by_cases hs : 100 * (d0.toNat - 0x30) + 10 * (d1.toNat - 0x30) + (d2.toNat - 0x30) ≤ 256
    · rw [if_pos hs, if_pos ⟨h0, h1, h2, hs⟩]
    · rw [if_neg hs, if_neg (fun ⟨_, _, _, h⟩ => hs h)]
  · rw [if_neg (fun ⟨h0, h1, h2, _⟩ => hd ⟨h0, h1, h2⟩)]
    have hn := (not_and_or.mp hd).imp_right not_and_or.mp
    exact lenField_of_not_digit (hn.imp digitValue_of_not_digit
      (.imp digitValue_of_not_digit digitValue_of_not_digit))

/-- The three decimal digits of a legal length decode to it. -/
theorem lenField_decimal {len : Nat} (h : len ≤ 256) : ∃ d0 d1 d2, decimal len 3 = [d0, d1, d2] ∧
    lenField d0 d1 d2 = some len := by
  refine ⟨_, _, _, rfl, ?_⟩
  have hlt (k : Nat) : k % 10 < 10 := Nat.mod_lt _ (by decide)
  rw [lenField_of_digits (digitValue_ofNat (hlt _)) (digitValue_ofNat (hlt _))
    (digitValue_ofNat (hlt _))]
  have hv : 100 * (len / 10 ^ 2 % 10) + 10 * (len / 10 ^ 1 % 10) + len / 10 ^ 0 % 10 = len := by
    omega
  rw [hv, if_pos h]

/-! ## The checksum field (R85) -/

/-- The four characters of a checksum are the digits of its nibbles. -/
theorem checksumField_eq (v : BitVec 16) : checksumField v =
    [hexdigit (v.extractLsb' 12 4), hexdigit (v.extractLsb' 8 4),
      hexdigit (v.extractLsb' 4 4), hexdigit (v.extractLsb' 0 4)] := by
  have nibble (lo k : Nat) (h : k + 4 ≤ 8) :
      (v.extractLsb' lo 8).extractLsb' k 4 = v.extractLsb' (lo + k) 4 := by
    ext i hi
    simp [show k + i < 8 by omega, Nat.add_assoc]
  simp [checksumField, hexEncode, hexHigh, hexLow, nibble]

/-- The nibbles of four joined nibbles. -/
theorem extract_joined_nibbles (a b c d : BitVec 4) :
    (a ++ b ++ c ++ d).extractLsb' 12 4 = a ∧ (a ++ b ++ c ++ d).extractLsb' 8 4 = b ∧
    (a ++ b ++ c ++ d).extractLsb' 4 4 = c ∧ (a ++ b ++ c ++ d).extractLsb' 0 4 = d :=
  have drop {n : Nat} (x : BitVec n) (y : BitVec 4) (lo : Nat) :
      (x ++ y).extractLsb' (lo + 4) 4 = x.extractLsb' lo 4 :=
    BitVec.extractLsb'_append_eq_of_le (Nat.le_add_left 4 lo)
  have last {n : Nat} (x : BitVec n) (y : BitVec 4) : (x ++ y).extractLsb' 0 4 = y :=
    BitVec.extractLsb'_append_eq_right
  ⟨(drop _ d 8).trans ((drop _ c 4).trans BitVec.extractLsb'_append_eq_left),
    (drop _ d 4).trans ((drop _ c 0).trans (last a b)), (drop _ d 0).trans (last _ c), last _ d⟩

/-- The characters of four joined nibbles are their digits. -/
theorem checksumField_append (a b c d : BitVec 4) :
    checksumField (a ++ b ++ c ++ d) = [hexdigit a, hexdigit b, hexdigit c, hexdigit d] := by
  obtain ⟨ha, hb, hc, hd⟩ := extract_joined_nibbles a b c d
  rw [checksumField_eq, ha, hb, hc, hd]

/-- A character outside the alphabet makes the field invalid. -/
theorem checksumValue_of_invalid {t0 t1 t2 t3 : Byte} (h : hexval t0 = none ∨ hexval t1 = none ∨
    hexval t2 = none ∨ hexval t3 = none) : checksumValue t0 t1 t2 t3 = none := by
  unfold checksumValue
  split
  · simp_all
  · rfl

/-- Settles O59: a field is invalid by one character or by its value, and the digits of a value read
back as it. -/
theorem lenAndChecksumFields : Obligations.LenAndChecksumFields := by
  unfold Obligations.LenAndChecksumFields
  refine ⟨lenField_eq_ite, fun len => lenField_decimal, checksumField_eq, ?_,
    fun t0 t1 t2 t3 => checksumValue_of_invalid, by decide⟩
  intro t0 t1 t2 t3 a b c d ha hb hc hd
  constructor
  · simp only [checksumValue, ha, hb, hc, hd]
  · rw [checksumField_append, hexdigit_of_hexval ha, hexdigit_of_hexval hb,
      hexdigit_of_hexval hc, hexdigit_of_hexval hd]

end Sys2Proof.Machine
end

section
/-!
PROOFS. The family of spec/40_crc16.md: the checksum of a span.
-/

namespace Sys2Proof.Machine

/-! ## The checksum of zero bytes (R102, R103) -/

@[simp] theorem crc16_nil : crc16 [] = 0 := rfl

/-- A zero byte leaves the accumulator at zero. -/
@[simp] theorem crcUpdate_zero_zero : crcUpdate 0 0 = 0 := by decide

/-- A leading zero byte does not change the checksum (law (c) of spec/40_crc16.md section 3): the
initial value is zero. -/
theorem crc16_zero_cons (d : Span) : crc16 (0 :: d) = crc16 d :=
  congrArg (d.foldl crcUpdate) crcUpdate_zero_zero

/-- Leading zero bytes do not change the checksum, however many. -/
theorem crc16_replicate_zero_append (n : Nat) (d : Span) :
    crc16 (List.replicate n 0 ++ d) = crc16 d := by
  induction n with
  | zero => rfl
  | succ n ih => exact (crc16_zero_cons _).trans ih

/-- The checksum of zero bytes is that of the empty span. -/
theorem crc16_replicate_zero (n : Nat) : crc16 (List.replicate n 0) = 0 := by
  simpa using crc16_replicate_zero_append n []

/-- Settles O23: the decoder and the operation by their equations, the spans of zero bytes because
leading zero bytes do not change a checksum. -/
theorem crcSpanAnswersTheChecksum : Obligations.CrcSpanAnswersTheChecksum := by
  unfold Obligations.CrcSpanAnswersTheChecksum
  exact ⟨fun _ _ => rfl, exec_crcSpan, crc16_nil, crc16_replicate_zero, by decide +kernel⟩

end Sys2Proof.Machine
end

section
/-!
PROOFS. The family of spec/41_hex_codec.md: the four hex operations.
-/

namespace Sys2Proof.Machine

/-! ## One byte and its two characters (R122, R123) -/

/-- Settles O29: the decoder and the operation by their equations, the corner cases by evaluation. -/
theorem hexEncbAnswersTwoDigits : Obligations.HexEncbAnswersTwoDigits := by
  unfold Obligations.HexEncbAnswersTwoDigits
  exact ⟨fun _ _ => rfl, exec_hexEncb, fun _ => ⟨rfl, rfl, rfl, rfl, rfl⟩⟩

/-- Two characters of the alphabet give the byte of their nibbles (R123). -/
theorem hexPair_of_hexval {cHi cLo : Byte} {h l : BitVec 4} (hh : hexval cHi = some h)
    (hl : hexval cLo = some l) : hexPair cHi cLo = .ok (h ++ l) := by
  simp only [hexPair, hh, hl]

/-- A character outside the alphabet makes the pair invalid (R123). -/
theorem hexPair_of_invalid {cHi cLo : Byte} (h : hexval cHi = none ∨ hexval cLo = none) :
    hexPair cHi cLo = .error .invalidChar := by
  unfold hexPair
  split
  · simp_all
  · rfl

/-- Settles O30: both outcomes by the value of a pair. -/
theorem hexDecpAnswersTheByteOrInvalidChar : Obligations.HexDecpAnswersTheByteOrInvalidChar := by
  unfold Obligations.HexDecpAnswersTheByteOrInvalidChar
  refine ⟨fun _ _ => rfl, ?_, ?_, fun _ => ⟨rfl, rfl, rfl⟩⟩
  · intro cHi cLo h l s hh hl
    rw [exec_hexDecp, hexPair_of_hexval hh hl]
    rfl
  · intro cHi cLo s h
    rw [exec_hexDecp, hexPair_of_invalid h]
    rfl

/-! ## The text of a span (R124, R125) -/

@[simp] theorem hexEncode_length (d : Span) : (hexEncode d).length = 2 * d.length := by
  induction d with
  | nil => rfl
  | cons b rest ih =>
    simp only [hexEncode, List.length_cons, ih]
    omega

/-- Characters 2i and 2i+1 of the text are those of byte i (R124). -/
theorem hexEncode_getD {d : Span} {i : Nat} (hi : i < d.length) :
    (hexEncode d).getD (2 * i) 0 = hexHigh (d.getD i 0) ∧
      (hexEncode d).getD (2 * i + 1) 0 = hexLow (d.getD i 0) := by
  induction d generalizing i with
  | nil => cases hi
  | cons b rest ih =>
    cases i with
    | zero => exact ⟨rfl, rfl⟩
    | succ i => exact ih (Nat.lt_of_succ_lt_succ hi)

/-- Every character of the text is the digit of a nibble (R125). -/
theorem digit_of_mem_hexEncode {d : Span} {c : Byte} (hc : c ∈ hexEncode d) :
    ∃ n, c = hexdigit n := by
  induction d with
  | nil => cases hc
  | cons b rest ih =>
    obtain rfl | rfl | hc : c = hexHigh b ∨ c = hexLow b ∨ c ∈ hexEncode rest := by
      simpa only [hexEncode, List.mem_cons] using hc
    · exact ⟨_, rfl⟩
    · exact ⟨_, rfl⟩
    · exact ih hc

/-- No digit is a byte outside the alphabet, so none is a delimiter (R125). -/
theorem hexdigit_ne_of_hexval_none {c : Byte} (h : hexval c = none) (n : BitVec 4) :
    hexdigit n ≠ c := by
  rintro rfl
  cases h.symm.trans (hexval_hexdigit n)

/-- Settles O31: the length, the two characters of each byte and the alphabet, each by induction on
the span. -/
theorem hexEncAnswersTheText : Obligations.HexEncAnswersTheText := by
  unfold Obligations.HexEncAnswersTheText
  refine ⟨fun _ _ => rfl, ?_, fun _ => ⟨rfl, rfl⟩⟩
  intro d s
  refine ⟨hexEncode d, exec_hexEnc d s, hexEncode_length d, fun i => hexEncode_getD, ?_⟩
  intro c hc
  obtain ⟨n, rfl⟩ := digit_of_mem_hexEncode hc
  exact ⟨by rw [hexval_hexdigit, Option.isSome_some], hexdigit_ne_of_hexval_none rfl n,
    hexdigit_ne_of_hexval_none rfl n⟩

/-! ## The bytes of a text (R126, R127) -/

/-- The two nibbles of a byte, joined, are the byte. -/
theorem nibbles_append (b : Byte) : b.extractLsb' 4 4 ++ b.extractLsb' 0 4 = b :=
  (BitVec.extractLsb'_append_extractLsb'_eq_extractLsb' (start₁ := 0) (len₁ := 4) rfl).trans
    BitVec.extractLsb'_eq_self

/-- The two characters of a byte give it back. -/
@[simp] theorem hexPair_hexHigh_hexLow (b : Byte) : hexPair (hexHigh b) (hexLow b) = .ok b := by
  have h := hexPair_of_hexval (hexval_hexdigit (b.extractLsb' 4 4))
    (hexval_hexdigit (b.extractLsb' 0 4))
  rwa [nibbles_append] at h

@[simp] theorem hexDecodePairs_hexEncode (d : Span) : hexDecodePairs (hexEncode d) = .ok d := by
  induction d with
  | nil => rfl
  | cons b rest ih => simp only [hexEncode, hexDecodePairs, hexPair_hexHigh_hexLow, ih]

theorem hexDecode_of_odd {text : Span} (h : text.length % 2 = 1) :
    hexDecode text = .error .oddLength := if_pos h

theorem hexDecode_of_even {text : Span} (h : text.length % 2 = 0) :
    hexDecode text = hexDecodePairs text := if_neg (by omega)

/-- Decoding the text of a span gives the span. -/
@[simp] theorem hexDecode_hexEncode (d : Span) : hexDecode (hexEncode d) = .ok d := by
  rw [hexDecode_of_even (by rw [hexEncode_length]; omega), hexDecodePairs_hexEncode]

/-- A text of even length whose characters are all of the alphabet is the text of a span. -/
theorem exists_hexEncode_eq {text : Span} (heven : text.length % 2 = 0)
    (hvalid : ∀ c ∈ text, hexval c ≠ none) : ∃ d, hexEncode d = text := by
  induction text using List.twoStepInduction with
  | nil => exact ⟨[], rfl⟩
  | singleton c => cases heven
  | cons_cons cHi cLo rest ih _ =>
    simp only [List.forall_mem_cons] at hvalid
    obtain ⟨hHi, hLo, hrest⟩ := hvalid
    obtain ⟨h, hh⟩ := Option.ne_none_iff_exists'.mp hHi
    obtain ⟨l, hl⟩ := Option.ne_none_iff_exists'.mp hLo
    obtain ⟨d, rfl⟩ := ih ((Nat.add_mod_right _ 2).symm.trans heven) hrest
    refine ⟨(h ++ l) :: d, ?_⟩
    rw [hexEncode, hexHigh, hexLow, BitVec.extractLsb'_append_eq_left,
      BitVec.extractLsb'_append_eq_right, hexdigit_of_hexval hh, hexdigit_of_hexval hl]

/-- A text of even length with a character outside the alphabet is rejected, whatever stands before
the character (R126). -/
theorem hexDecodePairs_of_invalid {text : Span} (heven : text.length % 2 = 0)
    (hinvalid : ∃ c ∈ text, hexval c = none) : hexDecodePairs text = .error .invalidChar := by
  induction text using List.twoStepInduction with
  | nil => simp at hinvalid
  | singleton c => cases heven
  | cons_cons cHi cLo rest ih _ =>
    by_cases hpair : hexval cHi = none ∨ hexval cLo = none
    · simp only [hexDecodePairs, hexPair_of_invalid hpair]
    · obtain ⟨hHi, hLo⟩ := not_or.mp hpair
      obtain ⟨h, hh⟩ := Option.ne_none_iff_exists'.mp hHi
      obtain ⟨l, hl⟩ := Option.ne_none_iff_exists'.mp hLo
      have hrest : ∃ c ∈ rest, hexval c = none := by simpa [hHi, hLo] using hinvalid
      have hdec := ih ((Nat.add_mod_right _ 2).symm.trans heven) hrest
      simp only [hexDecodePairs, hexPair_of_hexval hh hl, hdec]

/-- Settles O32: the length decides first; a text of even length has a character outside the alphabet
or is the text of a span, whose characters are known. -/
theorem hexDecAnswersTheBytesOrTheRejection :
    Obligations.HexDecAnswersTheBytesOrTheRejection := by
  unfold Obligations.HexDecAnswersTheBytesOrTheRejection
  refine ⟨fun _ _ => rfl, ?_, ?_, ?_, fun _ => ⟨rfl, rfl, rfl, rfl, rfl, rfl, rfl⟩⟩
  · intro text s hodd
    rw [exec_hexDec, hexDecode_of_odd hodd]
    rfl
  · intro text s heven hinvalid
    rw [exec_hexDec, hexDecode_of_even heven, hexDecodePairs_of_invalid heven hinvalid]
    rfl
  · intro text s heven hvalid
    obtain ⟨d, rfl⟩ := exists_hexEncode_eq heven hvalid
    have hlen : (hexEncode d).length / 2 = d.length := by rw [hexEncode_length]; omega
    refine ⟨d, by rw [exec_hexDec, hexDecode_hexEncode]; rfl, hlen.symm, ?_⟩
    intro i hi
    obtain ⟨hHigh, hLow⟩ := hexEncode_getD (hlen ▸ hi)
    rw [hHigh, hLow]
    exact ⟨_, _, hexval_hexdigit _, hexval_hexdigit _, (nibbles_append _).symm⟩

end Sys2Proof.Machine
end

section
/-!
PROOFS. The family of spec/42_frame_parser.md, one byte at a time: what FSP.PUSH does in each state, and
FSP.RST.
-/

namespace Sys2Proof.Machine

/-! ## The record after a push -/

/-- The captured bytes after a store are those before it, followed by the stored one (R148). -/
theorem Fsp.captured_stored (b : Byte) (f : Fsp) (h : f.pos.toNat < 511) :
    (f.stored b).captured (f.stored b).pos.toNat = f.captured f.pos.toNat ++ [b] := by
  have hbefore : ∀ i ∈ List.range f.pos.toNat, (f.stored b).byte i = f.byte i := fun i hi =>
    Fsp.byte_stored_of_ne b f (Nat.ne_of_lt (List.mem_range.mp hi))
  rw [Fsp.stored_pos b f h, Fsp.captured, List.range_succ, List.map_append,
    List.map_congr_left hbefore, List.map_singleton, Fsp.byte_stored_self]
  rfl

/-- A stored data byte leaves FSP_STATE to the count of bytes alone (R146). -/
theorem Fsp.push_data_store_eq {maxFrame : Nat} (b : Byte) (f : Fsp) (hb : b ≠ startMarker)
    (hs : f.state = .data) (hp : f.pos.toNat < maxFrame) (h511 : f.pos.toNat < 511) :
    f.push maxFrame b = .ok ({ f.stored b with
      state := if f.pos.toNat + 1 = 12 + f.dlen.toNat then .crcTail else .data }, none) := by
  rw [Fsp.push_data_store maxFrame b f hb hs hp, Fsp.stored_pos b f h511]
  split
  · rfl
  · rw [← hs]
    rfl

/-- Completing a header stores nothing. -/
@[simp] theorem Fsp.completeHeader_cap (f : Fsp) : f.completeHeader.cap = f.cap := by
  obtain ⟨_, h⟩ | ⟨_, _, h⟩ := Fsp.completeHeader_cases f
  · rw [h, Fsp.clear_cap]
  · rw [h]

theorem Fsp.completeHeader_of_none {f : Fsp}
    (h : lenField (f.byte 7) (f.byte 8) (f.byte 9) = none) : f.completeHeader = f.clear := by
  simp only [Fsp.completeHeader, h]

theorem Fsp.completeHeader_of_some {f : Fsp} {len : Nat}
    (h : lenField (f.byte 7) (f.byte 8) (f.byte 9) = some len) :
    f.completeHeader.pos = f.pos ∧ f.completeHeader.dlen.toNat = len ∧
      f.completeHeader.state = if len = 0 then .crcTail else .data := by
  have hlen := lenField_le h
  simp only [Fsp.completeHeader, h, BitVec.toNat_ofNat, true_and, and_true]
  omega

/-! ## The states (R141 to R149) -/

/-- Settles O35: the restart writes the one element CAP[0]. -/
theorem startMarkerRestartsInAnyState : Obligations.StartMarkerRestartsInAnyState := by
  unfold Obligations.StartMarkerRestartsInAnyState
  intro s
  exact ⟨_, exec_fspPush (Fsp.push_start 273 s.fsp), rfl, rfl, rfl, Memory.get_set_self _ _ _,
    fun i => Memory.get_set_of_ne _ _, rfl⟩

/-- Settles O36, by the rule of Idle. -/
theorem idleDiscardsEveryOtherByte : Obligations.IdleDiscardsEveryOtherByte := by
  unfold Obligations.IdleDiscardsEveryOtherByte
  intro b s hs hb
  exact exec_fspPush (Fsp.push_idle 273 b s.fsp hb hs)

/-- Settles O37: completing a header stores nothing, so every byte is stored alike; at FSP_POS 11 the
digits at CAP[7..9] are older than the byte, and the LEN field decides by `lenField_eq_ite`. -/
theorem headerBytesAreStoredAndTheEleventhDecodesLength :
    Obligations.HeaderBytesAreStoredAndTheEleventhDecodesLength := by
  unfold Obligations.HeaderBytesAreStoredAndTheEleventhDecodesLength
  refine ⟨fun s hs => exec_fspPush (Fsp.push_header_end 273 s.fsp hs), ?_⟩
  intro b s hs hp hb he
  have hpos := Fsp.stored_pos b s.fsp (by omega)
  have hcap : (if (s.fsp.stored b).pos.toNat = 12 then (s.fsp.stored b).completeHeader
      else s.fsp.stored b).cap = Memory.set s.fsp.cap s.fsp.pos.toNat b := by
    rw [apply_ite Fsp.cap, Fsp.completeHeader_cap, ite_self, Fsp.stored_cap]
  refine ⟨_, exec_fspPush (Fsp.push_header_store 273 b s.fsp hb he hs (by omega)), rfl, ?_, ?_,
    ?_, ?_⟩
  · rw [hcap, Memory.get_set_self]
  · intro i hi
    rw [hcap, Memory.get_set_of_ne _ _ hi]
  · intro hlt
    rw [if_neg (by omega)]
    exact ⟨hs, hpos, rfl⟩
  · rintro h12 _ _ _ rfl rfl rfl
    have hbyte (i : Nat) (hi : i < 11) : (s.fsp.stored b).byte i = s.fsp.byte i :=
      Fsp.byte_stored_of_ne b s.fsp (by omega)
    have hlen := lenField_eq_ite (s.fsp.byte 7) (s.fsp.byte 8) (s.fsp.byte 9)
    rw [← hbyte 7 (by decide), ← hbyte 8 (by decide), ← hbyte 9 (by decide)] at hlen ⊢
    rw [if_pos (hpos.trans h12)]
    split at hlen
    next hvalid =>
      obtain ⟨hpos', hdlen, hstate⟩ := Fsp.completeHeader_of_some hlen
      rw [if_pos hvalid]
      refine ⟨by rw [hpos', hpos, h12], hdlen, ?_, ?_⟩
      · intro h0
        rw [hstate, if_pos (hdlen.symm.trans h0)]
      · intro h1
        rw [hstate, if_neg (fun h0 => Nat.ne_of_gt h1 (hdlen.trans h0))]
    next hinvalid =>
      rw [if_neg hinvalid, Fsp.completeHeader_of_none hlen]
      exact ⟨rfl, rfl, rfl⟩

/-- Settles O38, by the two rules of Data; the bound under the invariant is that of FSP_DLEN. -/
theorem dataByteIsStoredWhateverItIs : Obligations.DataByteIsStoredWhateverItIs := by
  unfold Obligations.DataByteIsStoredWhateverItIs
  intro b s hs hb
  refine ⟨?_, fun hp => exec_fspPush (Fsp.push_data_abort 273 b s.fsp hb hs hp), ?_⟩
  · rintro ⟨⟨_, _, _, hdata, _⟩, _⟩
    have := hdata hs
    omega
  · intro hp
    exact ⟨_, exec_fspPush (Fsp.push_data_store_eq b s.fsp hb hs hp (by omega)), rfl,
      Memory.get_set_self _ _ _, fun i => Memory.get_set_of_ne _ _,
      Fsp.stored_pos b s.fsp (by omega), rfl, rfl⟩

/-- Settles O39, by the two rules of CrcTail for a byte that is no delimiter. -/
theorem tailByteIsStoredUpToFour : Obligations.TailByteIsStoredUpToFour := by
  unfold Obligations.TailByteIsStoredUpToFour
  intro b s hs hb he
  refine ⟨fun hp => exec_fspPush (Fsp.push_tail_abort 273 b s.fsp hb he hs hp), ?_⟩
  intro hk hp
  exact ⟨_, exec_fspPush (Fsp.push_tail_store 273 b s.fsp hb he hs hk hp), rfl,
    Memory.get_set_self _ _ _, fun i => Memory.get_set_of_ne _ _,
    Fsp.stored_pos b s.fsp (by omega), rfl, hs⟩

/-- Settles O40: the span handed over is the record's after the end marker has been stored, and the
invariant bounds the tail. -/
theorem endMarkerInTailHandsOver : Obligations.EndMarkerInTailHandsOver := by
  unfold Obligations.EndMarkerInTailHandsOver
  intro s hs
  refine ⟨fun hp => exec_fspPush (Fsp.push_tail_end_abort 273 s.fsp hs hp), ?_, ?_⟩
  · intro hp
    have hpush := Fsp.push_tail_end 273 s.fsp hs hp
    rw [Fsp.captured_stored endMarker s.fsp (by omega)] at hpush
    exact ⟨_, exec_fspPush hpush, rfl, rfl, rfl, rfl, Memory.get_set_self _ _ _,
      fun i => Memory.get_set_of_ne _ _⟩
  · rintro ⟨⟨_, _, _, _, htail, hmax⟩, _⟩
    obtain ⟨_, hlow, hhigh⟩ := htail hs
    exact ⟨hmax, s.fsp.pos.toNat - (12 + s.fsp.dlen.toNat), by omega, by omega, by omega⟩

/-! ## FSP.RST (R153) -/

/-- Settles O43: the decoder and the operation by their equations; the record is Idle after it, where
the next byte is discarded. -/
theorem rstClearsTheRecord : Obligations.RstClearsTheRecord := by
  unfold Obligations.RstClearsTheRecord
  refine ⟨fun _ _ => rfl, exec_fspRst, ?_⟩
  intro s t h
  have hidle : t.fsp.state = .idle := by
    rw [← Host.Outcome.next.inj ((exec_fspRst s).symm.trans h), Fsp.clear_state]
  exact idleDiscardsEveryOtherByte 0x41 t hidle (by decide)

end Sys2Proof.Machine
end

section
/-!
PROOFS. The family of spec/43_sample_ring.md: what each ring operation answers, what a put does to the
stored entries, and which operations write the ring at all.
-/

namespace Sys2Proof.Machine

/-! ## The slots of the stored entries (R34) -/

/-- The slot of the k-th newest entry as the spec writes it. -/
theorem Srb.newest_eq_entry (r : Srb) {k : Nat} (hk : k < 600) :
    r.newest k = r.entry ((r.head.toNat + 600 - 1 - k) % 600) := by
  rw [Srb.newest, ringSlot_eq _ _ hk]

/-- The stored entries after a store: the new one, then the newest 599 of the others (R171). -/
theorem Srb.entries_stored (e : SampleEntry) {r : Srb} (h : r.head.toNat < 600) :
    (r.stored e).entries = (e :: r.entries).take 600 := by
  have hcount : (r.stored e).count.toNat = min 599 r.count.toNat + 1 := by
    rw [Srb.stored_count]
    omega
  have holder : ∀ k ∈ List.range (min 599 r.count.toNat),
      ((r.stored e).newest ∘ Nat.succ) k = r.newest k := by
    intro k hk
    have := List.mem_range.mp hk
    exact Srb.newest_stored_succ e r k (by omega)
  rw [Srb.entries, hcount, List.range_succ_eq_map, List.map_cons, List.map_map,
    Srb.newest_stored_zero e r h, List.map_congr_left holder, List.take_succ_cons, Srb.entries,
    ← List.map_take, List.take_range]

@[simp] theorem Srb.entries_length (r : Srb) : r.entries.length = r.count.toNat := by
  simp [Srb.entries]

/-! ## SRB.PUT (R171) -/

/-- Settles O49, by the equation of a put; in a full ring the slot at the cursor is the 600th newest. -/
theorem putStoresAtTheWriteCursor : Obligations.PutStoresAtTheWriteCursor := by
  unfold Obligations.PutStoresAtTheWriteCursor
  refine ⟨fun _ _ => ⟨rfl, rfl⟩, ?_, ?_, ?_⟩
  · intro e s h
    exact ⟨_, exec_srbPut e s h, rfl, Memory.get_set_self _ _ _,
      fun i => Memory.get_set_of_ne _ _, Srb.stored_head e s.srb, Srb.stored_count e s.srb⟩
  · intro s h _
    rw [Srb.newest, ringSlot_oldest _ h]
  · exact ⟨_, exec_srbPut _ State.reset (by decide), rfl, rfl, rfl⟩

/-- SRB.PUT as a transaction of port P. -/
theorem perform_srbPut (e : SampleEntry) (s : State) (h : s.srb.head.toNat < 600) :
    perform .P (encode (.srbPut e)) s =
      .next { s with srb := s.srb.stored e, respP := some (.ok .none) } := by
  have hd : decode .P (encode (.srbPut e)) = .instr (.srbPut e) :=
    congrArg (fun e => Decoded.instr (.srbPut e)) (unpackEntry_packEntry e)
  rw [perform, hd]
  exact exec_srbPut e s h

/-- Any sequence of puts from a ring that meets its invariant completes; the ring then holds the newest
600 of the new entries and the old ones. -/
theorem performAll_srbPut (es : List SampleEntry) {s : State} (h : s.srb.Inv) :
    ∃ t, performAll (es.map (fun e => (Port.P, encode (.srbPut e)))) s = .next t ∧ t.srb.Inv ∧
      t.srb.entries = (es.reverse ++ s.srb.entries).take 600 := by
  induction es generalizing s with
  | nil =>
    refine ⟨s, rfl, h, (List.take_of_length_le ?_).symm⟩
    obtain ⟨_, hcount, _⟩ := h
    simpa using hcount
  | cons e es ih =>
    obtain ⟨t, ht, hinv, hentries⟩ :=
      ih (s := { s with srb := s.srb.stored e, respP := some (.ok .none) }) (Srb.inv_stored e _ h)
    refine ⟨t, ?_, hinv, ?_⟩
    · rw [List.map_cons, performAll, perform_srbPut e s h.1]
      exact ht
    · calc t.srb.entries
        _ = (es.reverse ++ (s.srb.stored e).entries).take 600 := hentries
        _ = (es.reverse ++ (e :: s.srb.entries)).take 600 := by
          rw [Srb.entries_stored e h.1, List.take_append, List.take_take,
            Nat.min_eq_left (Nat.sub_le _ _), List.take_append]
        _ = ((e :: es).reverse ++ s.srb.entries).take 600 := by
          rw [List.reverse_cons, List.append_assoc, List.singleton_append]

/-! ## SRB.LATEST and SRB.CLR (R173, R182) -/

theorem exec_srbLatest_of_empty {s : State} (h : s.srb.count.toNat = 0) :
    exec .srbLatest s = .next { s with respM := some (.error .empty) } := by
  have hlatest : s.srb.latest = .error .empty := by simp [Srb.latest, Srb.isEmpty, h]
  rw [exec_srbLatest, hlatest]
  rfl

theorem exec_srbLatest_of_nonempty {s : State} (h : s.srb.count.toNat ≠ 0) :
    exec .srbLatest s =
      .next { s with respM := some (.ok (.entry (packEntry (s.srb.newest 0)))) } := by
  rw [exec_srbLatest, Srb.latest_of_nonempty h]
  rfl

/-- After SRB.CLR nothing is stored. -/
theorem exec_srbLatest_after_srbClr {s t : State} (h : exec .srbClr s = .next t) :
    exec .srbLatest t = .next { t with respM := some (.error .empty) } := by
  cases h
  exact exec_srbLatest_of_empty rfl

/-- Settles O50: the newest slot is the one before the cursor, and after a put the one it stored in. -/
theorem latestAnswersTheLastPut : Obligations.LatestAnswersTheLastPut := by
  unfold Obligations.LatestAnswersTheLastPut
  refine ⟨fun _ _ => rfl, fun s => exec_srbLatest_of_empty, ?_, exec_srbLatest_of_empty rfl,
    fun s t => exec_srbLatest_after_srbClr, ?_⟩
  · intro s h
    rw [exec_srbLatest_of_nonempty h, Srb.newest, ringSlot_zero]
  · intro e s t h
    obtain ⟨hhead, rfl⟩ := exec_srbPut_cases h
    have hcount : (s.srb.stored e).count.toNat ≠ 0 := by rw [Srb.stored_count]; omega
    rw [exec_srbLatest_of_nonempty hcount, Srb.newest_stored_zero e s.srb hhead]

/-- Settles O55: the decoder and the operation by their equations, and the count it leaves is 0. -/
theorem clrForgetsEveryEntry : Obligations.ClrForgetsEveryEntry := by
  unfold Obligations.ClrForgetsEveryEntry
  exact ⟨fun _ _ => rfl, exec_srbClr, fun s t => exec_srbLatest_after_srbClr⟩

/-! ## SRB.BYOFS (R175 to R179) -/

/-- An answer with an error status comes from that error (R76). -/
theorem Response.of_eq_error {α : Type} {group : α → ResultGroup} {x : Except ErrorStatus α}
    {e : ErrorStatus} (h : Response.of group x = .error e) : x = .error e := by
  cases x with
  | error e' => cases h; rfl
  | ok v => cases h

theorem exec_srbByofs_out_of_range {offsetMs now intervalMs : BitVec 32} {s : State}
    (h : offsetMs.toNat = 0 ∨ 600 * intervalMs.toNat < offsetMs.toNat) :
    exec (.srbByofs offsetMs now intervalMs) s =
      .next { s with respM := some (.error .outOfRange) } := by
  rw [exec_srbByofs, Srb.byOffset_out_of_range _ _ _ _ _ h]
  rfl

section InRange

variable {offsetMs now intervalMs : BitVec 32} (h0 : offsetMs.toNat ≠ 0)
  (h1 : offsetMs.toNat ≤ 600 * intervalMs.toNat)
include h0 h1

/-- In range, a query answers what the scan finds (R178). -/
theorem Srb.byOffset_of_scan_some {r : Srb} {e : SampleEntry}
    (h : r.scan (now - offsetMs) 0 r.count.toNat = some e) :
    r.byOffset .overwriteOldest offsetMs now intervalMs = .ok e := by
  simp only [Srb.byOffset_in_range _ _ _ _ _ h0 h1, h]

/-- In range, a query whose scan finds nothing answers EMPTY (R179). -/
theorem Srb.byOffset_of_scan_none {r : Srb}
    (h : r.scan (now - offsetMs) 0 r.count.toNat = none) :
    r.byOffset .overwriteOldest offsetMs now intervalMs = .error .empty := by
  simp only [Srb.byOffset_in_range _ _ _ _ _ h0 h1, h, Srb.exhausted]

/-- In range, a query never answers OUT_OF_RANGE (R176). -/
theorem Srb.byOffset_ne_outOfRange (r : Srb) :
    r.byOffset .overwriteOldest offsetMs now intervalMs ≠ .error .outOfRange := by
  cases hscan : r.scan (now - offsetMs) 0 r.count.toNat with
  | none => simp [Srb.byOffset_of_scan_none h0 h1 hscan]
  | some e => simp [Srb.byOffset_of_scan_some h0 h1 hscan]

end InRange

/-- The target of a query (R177). -/
theorem target_toNat (now offsetMs : BitVec 32) :
    (now - offsetMs).toNat = (now.toNat + 2 ^ 32 - offsetMs.toNat) % 2 ^ 32 := by
  rw [BitVec.toNat_sub]
  omega

/-- Settles O51: the range check is the first test of the query, and past it OUT_OF_RANGE is no
answer; an interval of 0 leaves every offset out of range. -/
theorem byOffsetRangeCheckComesFirst : Obligations.ByOffsetRangeCheckComesFirst := by
  unfold Obligations.ByOffsetRangeCheckComesFirst
  refine ⟨fun _ _ _ _ => exec_srbByofs_out_of_range, ?_, ?_⟩
  · intro offsetMs now s
    have hzero : (0 : BitVec 32).toNat = 0 := rfl
    exact exec_srbByofs_out_of_range (by omega)
  · intro offsetMs now intervalMs s h0 h1 h
    have hanswer := congrArg State.respM (Host.Outcome.next.inj h)
    exact Srb.byOffset_ne_outOfRange h0 h1 s.srb (Response.of_eq_error (Option.some.inj hanswer))

/-- Settles O52: the scan finds the first entry not after the target, or none. -/
theorem byOffsetAnswersTheNewestNotAfterTarget :
    Obligations.ByOffsetAnswersTheNewestNotAfterTarget := by
  unfold Obligations.ByOffsetAnswersTheNewestNotAfterTarget
  refine ⟨fun _ _ => rfl, ?_⟩
  rintro offsetMs now intervalMs s _ h0 h1 hcount rfl
  rw [← target_toNat]
  refine ⟨?_, ?_⟩
  · intro k hk hmatch hnewer
    rw [← Srb.newest_eq_entry _ (by omega)] at hmatch ⊢
    have hscan : s.srb.scan (now - offsetMs) 0 s.srb.count.toNat = some (s.srb.newest k) := by
      refine Srb.scan_eq_some _ _ (Nat.zero_le k) (by omega) hmatch ?_
      intro j _ hj
      rw [Srb.newest_eq_entry _ (by omega)]
      exact hnewer j hj
    rw [exec_srbByofs, Srb.byOffset_of_scan_some h0 h1 hscan]
    rfl
  · intro hafter
    have hscan : s.srb.scan (now - offsetMs) 0 s.srb.count.toNat = none := by
      refine Srb.scan_eq_none _ _ ?_
      intro k _ hk
      rw [Srb.newest_eq_entry _ (by omega)]
      exact hafter k (by omega)
    rw [exec_srbByofs, Srb.byOffset_of_scan_none h0 h1 hscan]
    rfl

/-! ## SRB.COUNT and SRB.FULL (R180, R181) -/

/-- What an operation can do to the ring: SRB.PUT stores, SRB.CLR clears, and no other writes it. -/
theorem exec_srb_cases {i : Instr} {s t : State} (h : exec i s = .next t) :
    t.srb = s.srb ∨
    (∃ e, i = .srbPut e ∧ s.srb.head.toNat < 600 ∧ t.srb = s.srb.stored e) ∨
    (i = .srbClr ∧ t.srb = s.srb.clear) := by
  cases i
  case fspPush b =>
    obtain ⟨_, _, _, rfl⟩ := exec_fspPush_cases h
    exact .inl rfl
  case srbPut e =>
    obtain ⟨hhead, rfl⟩ := exec_srbPut_cases h
    exact .inr (.inl ⟨e, rfl, hhead, rfl⟩)
  case srbClr =>
    cases h
    exact .inr (.inr ⟨rfl, rfl⟩)
  all_goals
    cases h
    exact .inl rfl

/-- Only a transaction with the code of SRB.CLR lowers SRB_COUNT (R180). -/
theorem perform_count_le {p : Port} {r : Request} {s t : State} (hcount : s.srb.count.toNat ≤ 600)
    (h : perform p r s = .next t) (hop : r.op ≠ 0x3F) :
    s.srb.count.toNat ≤ t.srb.count.toNat := by
  obtain ⟨i, _, _, hcode, hexec⟩ | ⟨_, rfl⟩ := perform_cases h
  · obtain hsame | ⟨e, _, _, hstored⟩ | ⟨rfl, _⟩ := exec_srb_cases hexec
    · rw [hsame]
    · rw [hstored, Srb.stored_count]
      omega
    · exact absurd hcode.symm hop
  · rw [State.raise, State.answer_srb]

theorem exec_srbFull_eq {s : State} {b : Bool} (h : s.srb.isFull = b) :
    exec .srbFull s = .next { s with respM := some (.ok (.full b)) } := by
  rw [exec_srbFull, h]
  rfl

/-- Settles O54: the count is the number of the stored entries, which a put replaces or extends. -/
theorem countAndFullReportTheCount : Obligations.CountAndFullReportTheCount := by
  unfold Obligations.CountAndFullReportTheCount
  refine ⟨fun _ _ => ⟨rfl, rfl⟩, ?_, ?_, ?_, ?_⟩
  · intro s
    exact ⟨exec_srbCount s, fun h => exec_srbFull_eq (decide_eq_true h),
      fun h => exec_srbFull_eq (decide_eq_false h)⟩
  · intro es
    obtain ⟨t, ht, _, hentries⟩ := performAll_srbPut es (s := State.reset) (by decide)
    have hreset : State.reset.srb.entries = [] := rfl
    refine ⟨t, ht, ?_⟩
    rw [← Srb.entries_length, hentries, hreset, List.append_nil, List.length_take,
      List.length_reverse, Nat.min_comm]
  · rintro p r s t ⟨_, hcount, _⟩
    exact perform_count_le hcount
  · rintro e s ⟨hhead, _⟩ hfull
    refine ⟨_, exec_srbPut e s hhead, rfl, by rw [Srb.stored_count]; omega, ?_⟩
    rw [Srb.entries_stored e hhead, List.take_succ_cons, List.dropLast_eq_take,
      Srb.entries_length, hfull]

end Sys2Proof.Machine
end

section
/-!
PROOFS. The family of spec/70_reset_and_hazards.md, its partial resets: what FSP.RST and SRB.CLR share
with reset.
-/

namespace Sys2Proof.Machine

/-! ## The partial resets (R253) -/

/-- Clearing the parser's record is resetting it around its CAP, whatever state it was in (R153). -/
theorem Fsp.clear_eq_reset_with_cap (f : Fsp) : f.clear = { Fsp.reset with cap := f.cap } := rfl

/-- Clearing the ring's record is resetting it around its RING, whatever it stored (R182). -/
theorem Srb.clear_eq_reset_with_ring (r : Srb) : r.clear = { Srb.reset with ring := r.ring } := rfl

/-- Settles O19: each operation puts the cleared record in place of its unit's, and the cleared record
is the reset one around the old storage. -/
theorem partialResetsResetOneUnit : Obligations.PartialResetsResetOneUnit := by
  unfold Obligations.PartialResetsResetOneUnit
  refine ⟨?_, ?_⟩
  · intro s
    exact ⟨_, exec_fspRst s, s.fsp.clear_eq_reset_with_cap, rfl⟩
  · intro s
    exact ⟨_, exec_srbClr s, s.srb.clear_eq_reset_with_ring, rfl⟩

end Sys2Proof.Machine
end

section
/-!
PROOFS. The family of spec/30_encoding.md, its round trips: decoding gives back what was encoded or
written down, and what decodes is an encoding.
-/

namespace Sys2Proof

/-! ## The operand group of a format (R71) -/

/-- The encoding of an operation carries exactly the operand group of its format. -/
theorem encode_fits (i : Instr) : (encode i).fits i.format = true := by
  cases i with
  | crcStep acc b => exact Laws.Canonical.crcStep acc b
  | hexEncb b => exact Laws.Canonical.hexEncb b
  | hexDecp cHi cLo => exact Laws.Canonical.hexDecp cHi cLo
  | fspPush b => exact Laws.Canonical.fspPush b
  | srbPut e => exact Laws.Canonical.srbPut e
  | srbByofs offsetMs now intervalMs => exact Laws.Canonical.srbByofs offsetMs now intervalMs
  | _ => rfl

theorem Request.fits_iff {f : OperandFormat} {r : Request} : r.fits f = true ↔
    r.operand.toNat < 256 ^ f.bytes ∧ (f ≠ .s → r.span = []) := by
  rw [Request.fits, Bool.and_eq_true, Request.operandFits, decide_eq_true_eq, Nat.pow_mul]
  cases f <;> simp [Request.spanFits]

/-- A query's operands are the three fields of its group (R89). -/
theorem extract_packQuery (offsetMs now intervalMs : BitVec 32) :
    (packQuery offsetMs now intervalMs).extractLsb' 64 32 = offsetMs ∧
    (packQuery offsetMs now intervalMs).extractLsb' 32 32 = now ∧
    (packQuery offsetMs now intervalMs).extractLsb' 0 32 = intervalMs :=
  ⟨(BitVec.extractLsb'_append_eq_of_le (by decide)).trans BitVec.extractLsb'_append_eq_left,
    (BitVec.extractLsb'_append_eq_of_le (by decide)).trans BitVec.extractLsb'_append_eq_right,
    BitVec.extractLsb'_append_eq_right⟩

/-- Three fields of 32 bits are the group they are taken from (R89). -/
theorem packQuery_extract (v : BitVec 96) :
    packQuery (v.extractLsb' 64 32) (v.extractLsb' 32 32) (v.extractLsb' 0 32) = v := by
  apply BitVec.eq_of_toNat_eq
  have := v.isLt
  simp only [packQuery, extract_toNat, append_toNat]
  omega

/-- A slice of a group widened to the operand lines is the slice of the group. -/
theorem extract_setWidth {n lo len : Nat} (x : BitVec n) (h : n ≤ 96) :
    (x.setWidth 96).extractLsb' lo len = x.extractLsb' lo len := by
  apply BitVec.eq_of_toNat_eq
  rw [extract_toNat, extract_toNat, BitVec.toNat_setWidth_of_le h]

/-- Operand lines that carry nothing above a group are the group's slice, widened again. -/
theorem setWidth_extract {n : Nat} (v : BitVec 96) (h : v.toNat < 2 ^ n) :
    (v.extractLsb' 0 n).setWidth 96 = v := by
  apply BitVec.eq_of_toNat_eq
  rw [BitVec.toNat_setWidth, extract_toNat, pow_zero, Nat.div_one, Nat.mod_eq_of_lt h,
    Nat.mod_eq_of_lt v.isLt]

/-- Two fields next to each other are one slice. -/
theorem extract_append_extract (v : BitVec 96) (n m : Nat) :
    v.extractLsb' m n ++ v.extractLsb' 0 m = v.extractLsb' 0 (n + m) :=
  BitVec.extractLsb'_append_extractLsb'_eq_extractLsb' (by simp)

/-! ## Decoding an encoding (R72, R73) -/

/-- The fields of a widened group of two. -/
theorem extract_widened_fields {n m : Nat} (x : BitVec n) (y : BitVec m) (h : n + m ≤ 96) :
    ((x ++ y).setWidth 96).extractLsb' m n = x ∧ ((x ++ y).setWidth 96).extractLsb' 0 m = y := by
  rw [extract_setWidth _ h, extract_setWidth _ h]
  exact ⟨BitVec.extractLsb'_append_eq_left, BitVec.extractLsb'_append_eq_right⟩

/-- The encoding of an operation asks for it, with every operand at every value. -/
theorem instrOf_encode (i : Instr) : instrOf (encode i) = some i := by
  have hbyte (b : Byte) : (b.setWidth 96).extractLsb' 0 8 = b := by
    rw [extract_setWidth b (by decide), BitVec.extractLsb'_eq_self]
  cases i with
  | crcStep acc b =>
    obtain ⟨hacc, hb⟩ := extract_widened_fields acc b (by decide)
    exact congrArg some (congrArg₂ Instr.crcStep hacc hb)
  | hexEncb b => exact congrArg (fun x => some (Instr.hexEncb x)) (hbyte b)
  | hexDecp cHi cLo =>
    obtain ⟨hHi, hLo⟩ := extract_widened_fields cHi cLo (by decide)
    exact congrArg some (congrArg₂ Instr.hexDecp hHi hLo)
  | fspPush b => exact congrArg (fun x => some (Instr.fspPush x)) (hbyte b)
  | srbPut e => exact congrArg (fun x => some (Instr.srbPut x)) (unpackEntry_packEntry e)
  | srbByofs offsetMs now intervalMs =>
    obtain ⟨hoffset, hnow, hinterval⟩ := extract_packQuery offsetMs now intervalMs
    simp only [instrOf, encode, Instr.code, Instr.operand, hoffset, hnow, hinterval]
  | _ => rfl

end Sys2Proof

namespace Sys2Proof.Machine

theorem decode_encode (i : Instr) : decode i.port (encode i) = .instr i :=
  decode_eq_instr.mpr ⟨instrOf_encode i, rfl⟩

/-- An operation asked for on a port it does not belong to is rejected by name (R73). -/
theorem decode_of_wrongPort {p : Port} {r : Request} {i : Instr} (h : instrOf r = some i)
    (hp : i.port ≠ p) : decode p r = .rejected (.wrongPort r.op) := by
  simp [decode, h, Instr.issuableOn, hp]

/-- Bytes with a code of a fixed width and as many operand bytes write down a transaction. -/
theorem requestOfBytes_of_fixed {op : Byte} {f : OperandFormat} {rest : List Byte}
    (hf : formatOf op = some f) (hs : f ≠ .s) (hlen : rest.length = f.bytes) :
    requestOfBytes (op :: rest) = .ok ⟨op, BitVec.ofNat 96 (beNat rest), []⟩ := by
  cases f with
  | s => exact absurd rfl hs
  | _ => simp only [requestOfBytes, hf, hlen, lt_irrefl, if_false]

/-- The bytes an operation is written down as write down its transaction. -/
theorem requestOfBytes_written (i : Instr) : requestOfBytes (written i) = .ok (encode i) := by
  obtain ⟨hoperand, hspan⟩ :
      i.operand.toNat < 256 ^ i.format.bytes ∧ (i.format ≠ .s → i.span = []) :=
    Request.fits_iff.mp (encode_fits i)
  by_cases hs : i.format = .s
  · cases i with
    | crcSpan | hexEnc | hexDec => rfl
    | _ => cases hs
  · have hlines : BitVec.ofNat 96 (beNat (beBytes i.format.bytes i.operand.toNat)) = i.operand := by
      rw [beNat_beBytes, Nat.mod_eq_of_lt hoperand, BitVec.ofNat_toNat, BitVec.setWidth_eq]
    rw [written, hspan hs, List.append_nil,
      requestOfBytes_of_fixed (formatOf_code i) hs (beBytes_length _ _), hlines, encode, hspan hs]

/-- Settles O2: the encoding asks for the operation, whose port decides, and the bytes it is written
down as write down its encoding. -/
theorem decodeOfEncodeIsTheOperation : Obligations.DecodeOfEncodeIsTheOperation := by
  unfold Obligations.DecodeOfEncodeIsTheOperation
  intro i
  refine ⟨decode_encode i, fun p hp => decode_of_wrongPort (instrOf_encode i) hp.symm, ?_⟩
  rw [decodeBytes, requestOfBytes_written]
  exact decode_encode i

/-! ## Encoding what decodes (R71) -/

/-- The operation a transaction asks for has the transaction's operand lines of its format's group,
and its span if the format has one. -/
theorem operands_of_instrOf {r : Request} {i : Instr} (h : instrOf r = some i) :
    i.operand = (r.operand.extractLsb' 0 (8 * i.format.bytes)).setWidth 96 ∧
      i.span = if i.format = .s then r.span else [] := by
  obtain ⟨op, v, d⟩ := r
  have hcode : i.code = op := code_of_instrOf h
  have hempty : 0 = (v.extractLsb' 0 0).setWidth 96 := by
    rw [BitVec.eq_nil (v.extractLsb' 0 0)]
    rfl
  cases i <;> simp only [Instr.code] at hcode <;> subst hcode <;> cases h
  case crcStep => exact ⟨congrArg (BitVec.setWidth 96) (extract_append_extract v 16 8), rfl⟩
  case hexDecp => exact ⟨congrArg (BitVec.setWidth 96) (extract_append_extract v 8 8), rfl⟩
  case hexEncb | fspPush => exact ⟨rfl, rfl⟩
  case srbPut => exact ⟨(packEntry_unpackEntry v).trans (setWidth_extract v v.isLt).symm, rfl⟩
  case srbByofs => exact ⟨(packQuery_extract v).trans (setWidth_extract v v.isLt).symm, rfl⟩
  all_goals exact ⟨hempty, rfl⟩

/-- A transaction that carries nothing outside the operand group is the encoding of the operation it
asks for. -/
theorem encode_of_instrOf {r : Request} {i : Instr} (h : instrOf r = some i)
    (hfits : r.fits i.format = true) : encode i = r := by
  obtain ⟨hoperand, hspan⟩ := operands_of_instrOf h
  obtain ⟨hlines, hnone⟩ := Request.fits_iff.mp hfits
  rw [setWidth_extract _ (by rwa [Nat.pow_mul])] at hoperand
  have hspan : i.span = r.span := by
    rw [hspan]
    split
    · rfl
    · exact (hnone ‹_›).symm
  rw [encode, code_of_instrOf h, hoperand, hspan]

/-- Settles O3: the operation has the transaction's code, whose format and port are its own, and its
operands are the transaction's. -/
theorem decodedTransactionIsTheEncoding : Obligations.DecodedTransactionIsTheEncoding := by
  unfold Obligations.DecodedTransactionIsTheEncoding
  intro p r i h
  obtain ⟨hi, hport⟩ := decode_eq_instr.mp h
  have hcode := code_of_instrOf hi
  exact ⟨hcode, hcode ▸ formatOf_code i, hport, encode_of_instrOf hi⟩

/-! ## Transactions the spec writes out -/

/-- Settles O1, by evaluation of the decoder. -/
theorem specTransactionsDecode : Obligations.SpecTransactionsDecode := by
  unfold Obligations.SpecTransactionsDecode
  exact ⟨rfl, rfl, rfl, rfl, rfl, rfl, rfl, rfl, rfl, rfl, rfl, rfl, rfl, rfl, rfl⟩

end Sys2Proof.Machine
end

section
/-!
PROOFS. The invariant of the machine (spec/10_state.md R29, R34): what each operation can do to the
parser's record, that every step keeps the invariant, and that no operation stops a machine that
meets it.
-/

namespace Sys2Proof.Machine

/-! ## The parser's record after a push (R29) -/

/-- A cleared record meets the invariant whatever CAP holds. -/
theorem Fsp.inv_clear {f : Fsp} (h : Memory.wf 273 f.cap = true) : f.clear.Inv := by
  refine ⟨by simp [Fsp.CursorsInv], by simp [Fsp.ContentsInv], h, ?_⟩
  simp

/-- A restarted record meets the invariant whatever it was before (R141). -/
theorem Fsp.inv_restart {f : Fsp} (h : Memory.wf 273 f.cap = true) : f.restart.Inv := by
  refine ⟨by simp [Fsp.CursorsInv], ⟨fun _ => Fsp.byte_restart_zero f, ?_, ?_, by simp, by simp⟩,
    Memory.wf_set 273 f.cap 0 startMarker h (by decide), ?_⟩
  · intro i hi h1
    have : i < 1 := hi
    omega
  · intro i hi h1
    have : i < 1 := hi
    omega
  · intro i hi
    obtain rfl : i = 0 := Nat.lt_one_iff.mp hi
    simp

/-- What holds of each captured byte and of the stored one holds of each captured byte after. -/
theorem Fsp.forall_byte_stored {P : Nat → Byte → Prop} {b : Byte} {f : Fsp}
    (hp : f.pos.toNat < 511) (hf : ∀ i < f.pos.toNat, P i (f.byte i)) (hb : P f.pos.toNat b) :
    ∀ i < (f.stored b).pos.toNat, P i ((f.stored b).byte i) := by
  intro i hi
  rw [Fsp.stored_pos b f hp] at hi
  rw [Fsp.byte_stored]
  split
  · next h => rwa [h]
  · exact hf i (by omega)

/-- A store inside CAP keeps the storage invariant. -/
theorem Fsp.storageInv_stored (b : Byte) {f : Fsp} (h : f.StorageInv) (hp : f.pos.toNat < 273) :
    (f.stored b).StorageInv := by
  obtain ⟨hwf, hwritten⟩ := h
  refine ⟨Memory.wf_set 273 f.cap _ b hwf hp, ?_⟩
  intro i hi
  rw [Fsp.stored_pos b f (by omega)] at hi
  rw [Fsp.stored_cap]
  by_cases hself : i = f.pos.toNat
  · rw [hself, Memory.get_set_self, Option.isSome_some]
  · rw [Memory.get_set_of_ne _ _ hself]
    exact hwritten i (by omega)

/-- A record with one byte more than one that meets the invariant meets it, if its cursors do and
what the invariant says of its state's own bytes holds. -/
theorem Fsp.inv_of_stored {f g : Fsp} {b : Byte} (h : f.Inv) (hstate : f.state ≠ .idle)
    (hp : f.pos.toNat < 273) (hb : b ≠ startMarker) (he : f.pos.toNat ≤ 11 → b ≠ endMarker)
    (hcap : g.cap = (f.stored b).cap) (hpos : g.pos = (f.stored b).pos) (hcursors : g.CursorsInv)
    (hlen : g.state = .data ∨ g.state = .crcTail →
      lenField (g.byte 7) (g.byte 8) (g.byte 9) = some g.dlen.toNat)
    (htail : g.state = .crcTail → ∀ i < g.pos.toNat, 12 + g.dlen.toNat ≤ i →
      g.byte i ≠ endMarker) : g.Inv := by
  obtain ⟨⟨hidle, _⟩, ⟨hmarker, hstart, hend, _⟩, hstorage⟩ := h
  have hpos0 : f.pos.toNat ≠ 0 := mt hidle.mpr hstate
  have hbyte : g.byte = (f.stored b).byte := funext (Fsp.byte_congr hcap)
  refine ⟨hcursors, ⟨?_, ?_, ?_, hlen, htail⟩, ?_⟩
  · intro _
    rw [hbyte, Fsp.byte_stored_of_ne b f hpos0.symm]
    exact hmarker (Nat.one_le_iff_ne_zero.mpr hpos0)
  · rw [hbyte, hpos]
    exact Fsp.forall_byte_stored (P := fun i c => 1 ≤ i → c ≠ startMarker) (by omega) hstart
      (fun _ => hb)
  · rw [hbyte, hpos]
    exact Fsp.forall_byte_stored (P := fun i c => 1 ≤ i → i ≤ 11 → c ≠ endMarker) (by omega) hend
      (fun _ => he)
  · rw [Fsp.StorageInv, hcap, hpos]
    exact Fsp.storageInv_stored b hstorage hp

/-- A header byte keeps the invariant: the header goes on, or is complete, or aborts (R144). -/
theorem Fsp.inv_header_stored {f : Fsp} {b : Byte} (h : f.Inv) (hs : f.state = .header)
    (hb : b ≠ startMarker) (he : b ≠ endMarker) :
    (if (f.stored b).pos.toNat = 12 then (f.stored b).completeHeader else f.stored b).Inv := by
  have ⟨⟨_, _, hheader, _⟩, _, hstorage⟩ := h
  obtain ⟨h1, h11, h0⟩ := hheader hs
  have hpos := Fsp.stored_pos b f (by omega)
  have hidle : f.state ≠ .idle := by simp [hs]
  split
  · next h12 =>
    obtain ⟨_, hclear⟩ | ⟨len, hlen, hcomplete⟩ := (f.stored b).completeHeader_cases
    · rw [hclear]
      exact Fsp.inv_clear (Fsp.storageInv_stored b hstorage (by omega)).1
    · have hle := lenField_le hlen
      have hdlen : (BitVec.ofNat 9 len).toNat = len := by
        rw [BitVec.toNat_ofNat]
        omega
      rw [hcomplete]
      refine Fsp.inv_of_stored h hidle (by omega) hb (fun _ => he) rfl rfl ?_ ?_ ?_
      · by_cases hz : len = 0
        · simp [Fsp.CursorsInv, hz, h12]
        · simp [Fsp.CursorsInv, hz, hdlen, h12]
          omega
      · intro _
        exact hlen.trans (congrArg some hdlen.symm)
      · intro _ i hi hi'
        have : i < (f.stored b).pos.toNat := hi
        omega
  · next h12 =>
    refine Fsp.inv_of_stored h hidle (by omega) hb (fun _ => he) rfl rfl ?_ ?_ ?_
    · simp [Fsp.CursorsInv, hs, hpos]
      omega
    · simp [hs]
    · simp [hs]

/-- A data byte keeps the invariant (R146). -/
theorem Fsp.inv_data_stored {f : Fsp} {b : Byte} (h : f.Inv) (hs : f.state = .data)
    (hb : b ≠ startMarker) :
    (if (f.stored b).pos.toNat = 12 + f.dlen.toNat then { f.stored b with state := .crcTail }
      else f.stored b).Inv := by
  have ⟨⟨_, _, _, hdata, _⟩, ⟨_, _, _, hlen, _⟩, _⟩ := h
  obtain ⟨h1, h256, h12, hlt⟩ := hdata hs
  have hpos := Fsp.stored_pos b f (by omega)
  have hidle : f.state ≠ .idle := by simp [hs]
  have hdigits : lenField ((f.stored b).byte 7) ((f.stored b).byte 8) ((f.stored b).byte 9) =
      some f.dlen.toNat := by
    rw [Fsp.byte_stored_of_ne b f (by omega), Fsp.byte_stored_of_ne b f (by omega),
      Fsp.byte_stored_of_ne b f (by omega)]
    exact hlen (.inl hs)
  split
  · next hlast =>
    refine Fsp.inv_of_stored h hidle (by omega) hb (by omega) rfl rfl ?_ (fun _ => hdigits) ?_
    · simp [Fsp.CursorsInv, hlast]
      omega
    · intro _ i hi hi'
      have : i < (f.stored b).pos.toNat := hi
      have : 12 + f.dlen.toNat ≤ i := hi'
      omega
  · next hlast =>
    refine Fsp.inv_of_stored h hidle (by omega) hb (by omega) rfl rfl ?_ (fun _ => hdigits) ?_
    · simp [Fsp.CursorsInv, hs, hpos]
      omega
    · simp [hs]

/-- A checksum character keeps the invariant (R149). -/
theorem Fsp.inv_tail_stored {f : Fsp} {b : Byte} (h : f.Inv) (hs : f.state = .crcTail)
    (hb : b ≠ startMarker) (he : b ≠ endMarker) (hk : f.pos.toNat < 12 + f.dlen.toNat + 4) :
    (f.stored b).Inv := by
  have ⟨⟨_, _, _, _, htail, _⟩, ⟨_, _, _, hlen, hend⟩, _⟩ := h
  obtain ⟨h256, hlow, _⟩ := htail hs
  have hpos := Fsp.stored_pos b f (by omega)
  refine Fsp.inv_of_stored h (by simp [hs]) (by omega) hb (fun _ => he) rfl rfl ?_ ?_ ?_
  · simp [Fsp.CursorsInv, hs, hpos]
    omega
  · intro _
    rw [Fsp.byte_stored_of_ne b f (by omega), Fsp.byte_stored_of_ne b f (by omega),
      Fsp.byte_stored_of_ne b f (by omega)]
    exact hlen (.inr hs)
  · intro _
    exact Fsp.forall_byte_stored (P := fun i c => 12 + f.dlen.toNat ≤ i → c ≠ endMarker)
      (by omega) (hend hs) (fun _ => he)

/-- Every push keeps the invariant of the parser. -/
theorem Fsp.push_inv {f g : Fsp} {b : Byte} {o : Option Span} (h : f.Inv)
    (hpush : f.push 273 b = .ok (g, o)) : g.Inv := by
  have ⟨_, _, hstorage⟩ := h
  have ⟨hcap, _⟩ := hstorage
  obtain ⟨_, rfl, _⟩ | ⟨_, _, rfl, _⟩ | ⟨_, _, rfl, _⟩ | ⟨hb, he, hs, _, _, rfl⟩ |
    ⟨hb, hs, _, _, rfl⟩ | ⟨hb, he, hs, hk, _, _, rfl⟩ | ⟨_, _, hp, rfl, _⟩ := Fsp.push_cases hpush
  · exact Fsp.inv_restart hcap
  · exact h
  · exact Fsp.inv_clear hcap
  · exact Fsp.inv_header_stored h hs hb he
  · exact Fsp.inv_data_stored h hs hb
  · exact Fsp.inv_tail_stored h hs hb he hk
  · exact Fsp.inv_clear (Fsp.storageInv_stored endMarker hstorage hp).1

/-- From a record that meets the invariant every push answers (R150). -/
theorem Fsp.push_answers_of_inv (b : Byte) {f : Fsp} (h : f.Inv) :
    ∃ g o, f.push 273 b = .ok (g, o) := by
  obtain ⟨⟨_, _, hheader, _⟩, _⟩ := h
  exact Fsp.push_answers 273 b f (fun hs => by have := hheader hs; omega)

/-! ## One operation -/

/-- A cleared ring meets the invariant whatever RING holds (R182). -/
theorem Srb.inv_clear {r : Srb} (h : r.Inv) : r.clear.Inv := by
  obtain ⟨_, _, _, hwf, _⟩ := h
  exact ⟨by simp, by simp, by simp, hwf, by simp⟩

/-- What an operation can do to the parser: FSP.PUSH pushes, FSP.RST clears, and no other writes it.
-/
theorem exec_fsp_cases {i : Instr} {s t : State} (h : exec i s = .next t) :
    t.fsp = s.fsp ∨
    (∃ b o, i = .fspPush b ∧ s.fsp.push 273 b = .ok (t.fsp, o)) ∨
    (i = .fspRst ∧ t.fsp = s.fsp.clear) := by
  cases i
  case fspPush b =>
    obtain ⟨_, o, hpush, rfl⟩ := exec_fspPush_cases h
    exact .inr (.inl ⟨b, o, rfl, hpush⟩)
  case srbPut e =>
    obtain ⟨_, rfl⟩ := exec_srbPut_cases h
    exact .inl rfl
  case fspRst =>
    cases h
    exact .inr (.inr ⟨rfl, rfl⟩)
  all_goals
    cases h
    exact .inl rfl

/-- Every operation keeps the invariant of the machine. -/
theorem exec_inv {i : Instr} {s t : State} (hs : s.Inv) (h : exec i s = .next t) : t.Inv := by
  obtain ⟨hfsp, hsrb⟩ := hs
  have ⟨_, _, hcap, _⟩ := hfsp
  refine ⟨?_, ?_⟩
  · obtain hsame | ⟨b, o, _, hpush⟩ | ⟨_, hclear⟩ := exec_fsp_cases h
    · rwa [hsame]
    · exact Fsp.push_inv hfsp hpush
    · rw [hclear]
      exact Fsp.inv_clear hcap
  · obtain hsame | ⟨e, _, _, hstored⟩ | ⟨_, hclear⟩ := exec_srb_cases h
    · rwa [hsame]
    · rw [hstored]
      exact Srb.inv_stored e s.srb hsrb
    · rw [hclear]
      exact Srb.inv_clear hsrb

/-- No operation stops a machine that meets the invariant (R246). -/
theorem exec_completes (i : Instr) {s : State} (hs : s.Inv) : ∃ t, exec i s = .next t := by
  obtain ⟨hfsp, hhead, _⟩ := hs
  cases i
  case fspPush b =>
    obtain ⟨g, o, hpush⟩ := Fsp.push_answers_of_inv b hfsp
    exact ⟨_, exec_fspPush hpush⟩
  case srbPut e => exact ⟨_, exec_srbPut e s hhead⟩
  all_goals exact ⟨_, rfl⟩

/-! ## One transaction and one step -/

/-- A transaction that decodes is its operation. -/
theorem perform_of_decode {p : Port} {r : Request} {i : Instr} (h : decode p r = .instr i)
    (s : State) : perform p r s = exec i s := by
  rw [perform, h]

theorem perform_inv {p : Port} {r : Request} {s t : State} (hs : s.Inv)
    (h : perform p r s = .next t) : t.Inv := by
  obtain ⟨i, _, _, _, hexec⟩ | ⟨_, rfl⟩ := perform_cases h
  · exact exec_inv hs hexec
  · rw [State.Inv, State.raise, State.answer_fsp, State.answer_srb]
    exact hs

theorem perform_completes (p : Port) (r : Request) {s : State} (hs : s.Inv) :
    ∃ t, perform p r s = .next t := by
  by_cases hd : ∃ i, decode p r = .instr i
  · obtain ⟨i, hi⟩ := hd
    rw [perform_of_decode hi]
    exact exec_completes i hs
  · exact ⟨_, perform_of_not_decoded hd s⟩

/-- With nothing presented a step answers the state it is in (log 4). -/
theorem step_of_idle {s : State} (h : s.issue = none) : step s = .next s := by
  rw [step, h]

/-- A step performs the transaction it takes from a port. -/
theorem step_of_issue {s u : State} {p : Port} {r : Request} (h : s.issue = some (p, r, u)) :
    step s = perform p r u := by
  rw [step, h]

/-- A step that completes was idle, or performed a transaction it took from a port. -/
theorem step_cases {s t : State} (h : step s = .next t) :
    (s.issue = none ∧ t = s) ∨
    ∃ p r u, s.issue = some (p, r, u) ∧ perform p r u = .next t := by
  cases hi : s.issue with
  | none =>
    rw [step_of_idle hi] at h
    exact .inl ⟨rfl, (Host.Outcome.next.inj h).symm⟩
  | some x =>
    obtain ⟨p, r, u⟩ := x
    exact .inr ⟨p, r, u, rfl, (step_of_issue hi).symm.trans h⟩

/-- Taking a transaction from a port leaves the two records. -/
theorem issue_inv {s u : State} {p : Port} {r : Request} (hs : s.Inv)
    (h : s.issue = some (p, r, u)) : u.Inv := by
  obtain ⟨_, _, hfsp, hsrb, _⟩ := issue_cases h
  rw [State.Inv, hfsp, hsrb]
  exact hs

/-- Settles O10: a step is idle or performs one operation, and every push, put and clear keeps the
invariant of its record. -/
theorem stepKeepsTheInvariant : Obligations.StepKeepsTheInvariant := by
  unfold Obligations.StepKeepsTheInvariant
  intro s t hs h
  obtain ⟨_, rfl⟩ | ⟨p, r, u, hissue, hperform⟩ := step_cases h
  · exact hs
  · exact perform_inv (issue_inv hs hissue) hperform

/-- Settles O11: the reset state lists nothing and both cursors are 0. -/
theorem resetMeetsTheInvariant : Obligations.ResetMeetsTheInvariant := by
  unfold Obligations.ResetMeetsTheInvariant
  exact ⟨Fsp.inv_clear (f := Fsp.reset) rfl, by decide⟩

/-- Settles O12: under the invariant a push stays inside CAP and a put inside RING, and no other
operation can stop. -/
theorem invariantStatesNeverStop : Obligations.InvariantStatesNeverStop := by
  unfold Obligations.InvariantStatesNeverStop
  refine ⟨fun i s => exec_completes i, ?_⟩
  intro s hs
  cases hi : s.issue with
  | none => exact ⟨s, step_of_idle hi⟩
  | some x =>
    obtain ⟨p, r, u⟩ := x
    rw [step_of_issue hi]
    exact perform_completes p r (issue_inv hs hi)

end Sys2Proof.Machine
end

section
/-!
PROOFS. What no operation observes (spec/10_state.md R26, R34): operations on two machines that
differ only outside the captured bytes and the stored entries answer alike and keep them so.
-/

namespace Sys2Proof.Machine

/-! ## Alike parsers -/

/-- Two parser records that differ at most in CAP at and above FSP_POS (R26). -/
abbrev Fsp.Alike (f g : Fsp) : Prop :=
  f.state = g.state ∧ f.pos = g.pos ∧ f.dlen = g.dlen ∧ ∀ i < f.pos.toNat, f.byte i = g.byte i

/-- Two ring records that differ at most in RING outside the stored entries (R34). -/
abbrev Srb.Alike (r q : Srb) : Prop :=
  r.head = q.head ∧ r.count = q.count ∧ ∀ k < r.count.toNat, r.newest k = q.newest k

theorem Fsp.alike_refl (f : Fsp) : f.Alike f := ⟨rfl, rfl, rfl, fun _ _ => rfl⟩

theorem Srb.alike_refl (r : Srb) : r.Alike r := ⟨rfl, rfl, fun _ _ => rfl⟩

theorem State.alike_iff {s t : State} : s.Alike t ↔
    s.fsp.Alike t.fsp ∧ s.srb.Alike t.srb ∧ t = { s with fsp := t.fsp, srb := t.srb } := by
  simp only [State.Alike, Fsp.Alike, Srb.Alike, and_assoc]

/-- Alike parsers with nothing captured. -/
theorem Fsp.alike_clear (f g : Fsp) : f.clear.Alike g.clear := ⟨rfl, rfl, rfl, by simp⟩

theorem Fsp.alike_restart (f g : Fsp) : f.restart.Alike g.restart := by
  refine ⟨rfl, rfl, rfl, ?_⟩
  intro i hi
  obtain rfl : i = 0 := Nat.lt_one_iff.mp hi
  rw [Fsp.byte_restart_zero, Fsp.byte_restart_zero]

section Captured

variable {f g : Fsp} (h : f.Alike g)
include h

theorem Fsp.alike_stored (b : Byte) (hp : f.pos.toNat < 511) :
    (f.stored b).Alike (g.stored b) := by
  obtain ⟨hstate, hpos, hdlen, hbytes⟩ := h
  refine ⟨hstate, by rw [Fsp.stored, Fsp.stored, hpos], hdlen, ?_⟩
  refine Fsp.forall_byte_stored (P := fun i c => c = (g.stored b).byte i) hp ?_ ?_
  · intro i hi
    rw [hbytes i hi, Fsp.byte_stored_of_ne b g (by rw [← hpos]; omega)]
  · rw [hpos, Fsp.byte_stored_self]

/-- The length digits are captured, so alike records complete a header alike. -/
theorem Fsp.alike_completeHeader (hp : 10 ≤ f.pos.toNat) :
    f.completeHeader.Alike g.completeHeader := by
  have ⟨_, hpos, _, hbytes⟩ := h
  unfold Fsp.completeHeader
  rw [hbytes 7 (by omega), hbytes 8 (by omega), hbytes 9 (by omega)]
  cases lenField (g.byte 7) (g.byte 8) (g.byte 9) with
  | none => exact Fsp.alike_clear f g
  | some len => exact ⟨rfl, hpos, rfl, hbytes⟩

theorem Fsp.captured_of_alike : f.captured f.pos.toNat = g.captured g.pos.toNat := by
  obtain ⟨_, hpos, _, hbytes⟩ := h
  rw [← hpos]
  exact List.map_congr_left fun i hi => hbytes i (List.mem_range.mp hi)

theorem Fsp.packStatus_of_alike : packStatus f = packStatus g := by
  obtain ⟨hstate, hpos, hdlen, _⟩ := h
  rw [packStatus, packStatus, hstate, hpos, hdlen]

/-- A push into alike records hands over the same span and leaves them alike. -/
theorem Fsp.push_alike (b : Byte) (hf : f.Inv) :
    ∃ f' g' o, f.push 273 b = .ok (f', o) ∧ g.push 273 b = .ok (g', o) ∧ f'.Alike g' := by
  have ⟨hstate, hpos, hdlen, _⟩ := h
  obtain ⟨⟨_, _, hheader, hdata, htail, hmax⟩, _⟩ := hf
  have hgp : g.pos.toNat < 273 := by rw [← hpos]; omega
  by_cases hb : b = startMarker
  · subst hb
    exact ⟨_, _, _, Fsp.push_start 273 f, Fsp.push_start 273 g, Fsp.alike_restart f g⟩
  have hstored := Fsp.alike_stored h b (by omega)
  have ⟨_, hspos, _⟩ := hstored
  cases hs : f.state with
  | idle =>
    exact ⟨_, _, _, Fsp.push_idle 273 b f hb hs, Fsp.push_idle 273 b g hb (hstate ▸ hs), h⟩
  | header =>
    by_cases he : b = endMarker
    · subst he
      exact ⟨_, _, _, Fsp.push_header_end 273 f hs, Fsp.push_header_end 273 g (hstate ▸ hs),
        Fsp.alike_clear f g⟩
    · refine ⟨_, _, _, Fsp.push_header_store 273 b f hb he hs (by omega),
        Fsp.push_header_store 273 b g hb he (hstate ▸ hs) hgp, ?_⟩
      rw [← hspos]
      split
      · exact Fsp.alike_completeHeader hstored (by omega)
      · exact hstored
  | data =>
    refine ⟨_, _, _, Fsp.push_data_store 273 b f hb hs (by omega),
      Fsp.push_data_store 273 b g hb (hstate ▸ hs) hgp, ?_⟩
    rw [← hspos, ← hdlen]
    split
    · exact ⟨rfl, hstored.2⟩
    · exact hstored
  | crcTail =>
    by_cases he : b = endMarker
    · subst he
      refine ⟨_, _, _, Fsp.push_tail_end 273 f hs (by omega), ?_,
        Fsp.alike_clear _ (g.stored endMarker)⟩
      rw [Fsp.captured_of_alike hstored]
      exact Fsp.push_tail_end 273 g (hstate ▸ hs) hgp
    · by_cases hk : f.pos.toNat < 12 + f.dlen.toNat + 4
      · exact ⟨_, _, _, Fsp.push_tail_store 273 b f hb he hs hk (by omega),
          Fsp.push_tail_store 273 b g hb he (hstate ▸ hs) (by rwa [← hpos, ← hdlen]) hgp, hstored⟩
      · exact ⟨_, _, _, Fsp.push_tail_abort 273 b f hb he hs (.inl (Nat.not_lt.mp hk)),
          Fsp.push_tail_abort 273 b g hb he (hstate ▸ hs)
            (.inl (by rw [← hpos, ← hdlen]; exact Nat.not_lt.mp hk)), Fsp.alike_clear f g⟩

end Captured

/-! ## Alike rings -/

theorem Srb.alike_clear (r q : Srb) : r.clear.Alike q.clear := ⟨rfl, rfl, by simp⟩

section Stored

variable {r q : Srb} (h : r.Alike q)
include h

theorem Srb.alike_stored (e : SampleEntry) (hhead : r.head.toNat < 600) :
    (r.stored e).Alike (q.stored e) := by
  obtain ⟨hh, hc, hentries⟩ := h
  refine ⟨by rw [Srb.stored, Srb.stored, hh], by rw [Srb.stored, Srb.stored, hc], ?_⟩
  intro k hk
  rw [Srb.stored_count] at hk
  cases k with
  | zero => rw [Srb.newest_stored_zero e r hhead, Srb.newest_stored_zero e q (hh ▸ hhead)]
  | succ k =>
    rw [Srb.newest_stored_succ e r k (by omega), Srb.newest_stored_succ e q k (by omega)]
    exact hentries k (by omega)

theorem Srb.latest_of_alike : r.latest = q.latest := by
  obtain ⟨_, hc, hentries⟩ := h
  by_cases h0 : r.count.toNat = 0
  · simp [Srb.latest, Srb.isEmpty, h0, ← hc]
  · rw [Srb.latest_of_nonempty h0, Srb.latest_of_nonempty (hc ▸ h0),
      hentries 0 (Nat.pos_of_ne_zero h0)]

/-- The scan walks stored entries only. -/
theorem Srb.scan_of_alike (target : BitVec 32) :
    r.scan target 0 r.count.toNat = q.scan target 0 q.count.toNat := by
  obtain ⟨_, hc, hentries⟩ := h
  rw [Srb.scan_eq_find, Srb.scan_eq_find, ← hc]
  congr 1
  refine List.map_congr_left fun k hk => hentries k ?_
  obtain ⟨_, hlt⟩ := List.mem_range'_1.mp hk
  omega

theorem Srb.byOffset_of_alike (offsetMs now intervalMs : BitVec 32) :
    r.byOffset .overwriteOldest offsetMs now intervalMs =
      q.byOffset .overwriteOldest offsetMs now intervalMs := by
  simp only [Srb.byOffset, Srb.scan_of_alike h, Srb.exhausted]

end Stored

/-! ## Alike machines -/

/-- The eleven operations that change neither record (spec/20_memory.md section 3). -/
abbrev Instr.OnlyAnswers (i : Instr) : Prop :=
  (∀ b, i ≠ .fspPush b) ∧ i ≠ .fspRst ∧ (∀ e, i ≠ .srbPut e) ∧ i ≠ .srbClr

/-- Such an operation changes nothing but port M's answer, which the captured bytes, the stored
entries and the cursors alone decide. -/
theorem exec_of_onlyAnswers {i : Instr} (hi : Instr.OnlyAnswers i) {s t : State}
    (hfsp : s.fsp.Alike t.fsp) (hsrb : s.srb.Alike t.srb) :
    ∃ a, exec i s = .next (s.answer .M a) ∧ exec i t = .next (t.answer .M a) := by
  obtain ⟨hpush, hrst, hput, hclr⟩ := hi
  have ⟨_, hcount, _⟩ := hsrb
  cases i
  case fspPush b => exact absurd rfl (hpush b)
  case fspRst => exact absurd rfl hrst
  case srbPut e => exact absurd rfl (hput e)
  case srbClr => exact absurd rfl hclr
  case fspStat =>
    refine ⟨_, exec_fspStat s, ?_⟩
    rw [exec_fspStat, Fsp.packStatus_of_alike hfsp]
  case srbLatest =>
    refine ⟨_, exec_srbLatest s, ?_⟩
    rw [exec_srbLatest, Srb.latest_of_alike hsrb]
  case srbByofs offsetMs now intervalMs =>
    refine ⟨_, exec_srbByofs offsetMs now intervalMs s, ?_⟩
    rw [exec_srbByofs, Srb.byOffset_of_alike hsrb]
  case srbCount =>
    refine ⟨_, exec_srbCount s, ?_⟩
    rw [exec_srbCount, hcount]
  case srbFull =>
    refine ⟨_, exec_srbFull s, ?_⟩
    rw [exec_srbFull, Srb.isFull, Srb.isFull, hcount]
  all_goals exact ⟨_, rfl, rfl⟩

/-- Settles O16: the same records are alike, so the answer is the same. -/
theorem pureOperationsOnlyAnswer : Obligations.PureOperationsOnlyAnswer := by
  unfold Obligations.PureOperationsOnlyAnswer
  intro i hpush hrst hput hclr s u hfsp hsrb
  exact exec_of_onlyAnswers ⟨hpush, hrst, hput, hclr⟩ (hfsp ▸ Fsp.alike_refl _)
    (hsrb ▸ Srb.alike_refl _)

/-- The same answers and alike records in place of alike machines' own. -/
theorem State.alike_with {s t : State} (h : s.Alike t) {f g : Fsp} {r q : Srb} (hfsp : f.Alike g)
    (hsrb : r.Alike q) (m p : Option Response) :
    ({ s with fsp := f, srb := r, respM := m, respP := p } : State).Alike
      { t with fsp := g, srb := q, respM := m, respP := p } := by
  obtain ⟨_, _, hrest⟩ := State.alike_iff.mp h
  refine State.alike_iff.mpr ⟨hfsp, hsrb, ?_⟩
  rw [hrest]

/-- Settles O15: a push, a put and the two clears keep alike records alike, and every other
operation only answers. -/
theorem unspecifiedContentsAreUnobservable : Obligations.UnspecifiedContentsAreUnobservable := by
  unfold Obligations.UnspecifiedContentsAreUnobservable
  intro i s t hs _ h
  obtain ⟨hfsp, hsrb, hrest⟩ := State.alike_iff.mp h
  have hM : t.respM = s.respM := by rw [hrest]
  have hP : t.respP = s.respP := by rw [hrest]
  have honly (hi : Instr.OnlyAnswers i) :
      ∃ s' t', exec i s = .next s' ∧ exec i t = .next t' ∧ s'.Alike t' := by
    obtain ⟨a, hexecs, hexect⟩ := exec_of_onlyAnswers hi hfsp hsrb
    refine ⟨_, _, hexecs, hexect, ?_⟩
    rw [State.answer_M, State.answer_M, hP]
    exact State.alike_with h hfsp hsrb _ _
  cases i
  case fspPush b =>
    obtain ⟨f, g, o, hf, hg, hfg⟩ := Fsp.push_alike hfsp b hs.1
    refine ⟨_, _, exec_fspPush hf, exec_fspPush hg, ?_⟩
    rw [hP]
    exact State.alike_with h hfg hsrb _ _
  case fspRst =>
    refine ⟨_, _, exec_fspRst s, exec_fspRst t, ?_⟩
    rw [hP]
    exact State.alike_with h (Fsp.alike_clear _ _) hsrb _ _
  case srbPut e =>
    obtain ⟨_, hhead, _⟩ := hs
    refine ⟨_, _, exec_srbPut e s hhead, exec_srbPut e t (hsrb.1 ▸ hhead), ?_⟩
    rw [hM]
    exact State.alike_with h hfsp (Srb.alike_stored hsrb e hhead) _ _
  case srbClr =>
    refine ⟨_, _, exec_srbClr s, exec_srbClr t, ?_⟩
    rw [hP]
    exact State.alike_with h hfsp (Srb.alike_clear _ _) _ _
  all_goals exact honly ⟨nofun, nofun, nofun, nofun⟩

end Sys2Proof.Machine
end

section
/-!
PROOFS. The two ports (spec/20_memory.md section 4, spec/60_exceptions.md): what a transaction
changes on its own port and leaves on the other, how the waiting transactions of both are served,
and the first answers after reset.
-/

namespace Sys2Proof.Machine

/-! ## One transaction (R58, R70, R238, R239) -/

/-- Settles O9: a transaction performs an operation of its own port or answers ILLEGAL_OP on it. -/
theorem performAnswersOnItsOwnPort : Obligations.PerformAnswersOnItsOwnPort := by
  unfold Obligations.PerformAnswersOnItsOwnPort
  intro p r s t h
  obtain ⟨i, _, rfl, _, hexec⟩ | ⟨_, rfl⟩ := perform_cases h
  · obtain ⟨hrest, ⟨a, ha⟩, hother⟩ := exec_next hexec
    exact ⟨by rw [ha, Option.isSome_some], hother, hrest⟩
  · refine ⟨by rw [State.raise, State.response_answer, Option.isSome_some], ?_, ?_⟩
    · intro q hq
      cases p <;> cases q <;> trivial
    · cases p <;> rfl

/-- The operation of port P is SRB.PUT (R73). -/
theorem port_eq_P {i : Instr} (h : i.port = .P) : ∃ e, i = .srbPut e := by
  cases i
  case srbPut e => exact ⟨e, rfl⟩
  all_goals cases h

/-- Settles O17: the only operations that write the ring are SRB.PUT, of port P, and SRB.CLR, which
leaves RING; port P has no other operation than SRB.PUT. -/
theorem portsKeepToTheirOwnState : Obligations.PortsKeepToTheirOwnState := by
  unfold Obligations.PortsKeepToTheirOwnState
  refine ⟨?_, ?_⟩
  · intro r s t h
    obtain ⟨i, _, hport, hcode, hexec⟩ | ⟨_, rfl⟩ := perform_cases h
    · obtain ⟨_, _, hother⟩ := exec_next hexec
      have hrespP : t.respP = s.respP := hother .P (by rw [hport]; decide)
      obtain hsame | ⟨e, rfl, _⟩ | ⟨rfl, hclear⟩ := exec_srb_cases hexec
      · exact ⟨congrArg Srb.ring hsame, fun _ => hsame, hrespP⟩
      · cases hport
      · exact ⟨by rw [hclear, Srb.clear_ring], fun hop => absurd hcode.symm hop, hrespP⟩
    · exact ⟨rfl, fun _ => rfl, rfl⟩
  · intro r s t h
    obtain ⟨i, _, hport, hcode, hexec⟩ | ⟨_, rfl⟩ := perform_cases h
    · obtain ⟨e, rfl⟩ := port_eq_P hport
      obtain ⟨_, rfl⟩ := exec_srbPut_cases hexec
      exact ⟨rfl, rfl, fun hop => absurd hcode.symm hop⟩
    · exact ⟨rfl, rfl, fun _ => rfl⟩

/-- An operation that answers an error status has changed neither record: the four that change one
answer OK (R238). -/
theorem exec_records_of_error {i : Instr} {s t : State} {e : ErrorStatus} (h : exec i s = .next t)
    (he : t.response i.port = some (.error e)) : t.fsp = s.fsp ∧ t.srb = s.srb := by
  cases i
  case fspPush b =>
    obtain ⟨_, _, _, rfl⟩ := exec_fspPush_cases h
    cases he
  case srbPut x =>
    obtain ⟨_, rfl⟩ := exec_srbPut_cases h
    cases he
  case fspRst | srbClr =>
    cases h
    cases he
  all_goals
    cases h
    exact ⟨rfl, rfl⟩

/-- Settles O18: ILLEGAL_OP changes no record, and no operation that answers an error does. -/
theorem errorAnswersChangeNoState : Obligations.ErrorAnswersChangeNoState := by
  unfold Obligations.ErrorAnswersChangeNoState
  intro p r s t e h he
  obtain ⟨i, _, rfl, _, hexec⟩ | ⟨_, rfl⟩ := perform_cases h
  · exact exec_records_of_error hexec he
  · exact ⟨State.answer_fsp _ _ _, State.answer_srb _ _ _⟩

/-! ## Serving a port (R59, R60) -/

/-- Using up a choice changes nothing but what decides the next one. -/
theorem spend_eq (s : State) : ∃ ts n, s.spend = { s with turns := ts, seq := n } := by
  cases h : s.turns with
  | nil => exact ⟨s.turns, s.seq + 1, by simp only [State.spend, h]⟩
  | cons _ rest => exact ⟨rest, s.seq, by simp only [State.spend, h]⟩

theorem choice_of_turn {s : State} {p : Port} {ts : List Port} (h : s.turns = p :: ts) :
    s.choice = p ∧ s.spend = { s with turns := ts } := by
  simp only [State.choice, State.spend, h, and_self]

section Issue

variable {s : State} {r q : Request} {rest others : List Request}

theorem issue_of_M_alone (hM : s.portM = r :: rest) (hP : s.portP = []) :
    s.issue = some (.M, r, { s with portM := rest }) := by
  simp only [State.issue, hM, hP]

theorem issue_of_P_alone (hM : s.portM = []) (hP : s.portP = r :: rest) :
    s.issue = some (.P, r, { s with portP := rest }) := by
  simp only [State.issue, hM, hP]

theorem issue_of_choice_M (hM : s.portM = r :: rest) (hP : s.portP = q :: others)
    (hchoice : s.choice = .M) : s.issue = some (.M, r, { s.spend with portM := rest }) := by
  simp only [State.issue, hM, hP, hchoice]

theorem issue_of_choice_P (hM : s.portM = r :: rest) (hP : s.portP = q :: others)
    (hchoice : s.choice = .P) : s.issue = some (.P, q, { s.spend with portP := others }) := by
  simp only [State.issue, hM, hP, hchoice]

/-- A step that takes a transaction that decodes is its operation. -/
theorem step_of_issue_of_decode {u : State} {p : Port} {i : Instr}
    (hissue : s.issue = some (p, r, u)) (hd : decode p r = .instr i) : step s = exec i u :=
  (step_of_issue hissue).trans (perform_of_decode hd u)

end Issue

/-- Settles O6: the port served is the one that waits, or the one `turns` names. -/
theorem stepRunsTheDecodedOperation : Obligations.StepRunsTheDecodedOperation := by
  unfold Obligations.StepRunsTheDecodedOperation
  refine ⟨?_, ?_, ?_⟩
  · intro s r rest i hM hd
    refine ⟨fun hP => step_of_issue_of_decode (issue_of_M_alone hM hP) hd, ?_⟩
    intro ts hP hturns
    obtain ⟨q, others, hP⟩ := List.exists_cons_of_ne_nil hP
    obtain ⟨hchoice, hspend⟩ := choice_of_turn hturns
    rw [step_of_issue_of_decode (issue_of_choice_M hM hP hchoice) hd, hspend]
  · intro s r rest i hP hd
    refine ⟨fun hM => step_of_issue_of_decode (issue_of_P_alone hM hP) hd, ?_⟩
    intro ts hM hturns
    obtain ⟨q, others, hM⟩ := List.exists_cons_of_ne_nil hM
    obtain ⟨hchoice, hspend⟩ := choice_of_turn hturns
    rw [step_of_issue_of_decode (issue_of_choice_P hM hP hchoice) hd, hspend]
  · intro s hM hP
    refine step_of_idle ?_
    simp only [State.issue, hM, hP]

/-! ## A put and a query waiting together (Program 3 step 11) -/

/-- A run of two steps that complete. -/
theorem run_two {s t u : State} (h1 : step s = .next t) (h2 : step t = .next u) :
    Host.Core.run Sys2Proof.core 2 s = .next u :=
  (run_succ_of_next (M := Sys2Proof.core) h1).trans (run_succ_of_next (M := Sys2Proof.core) h2)

/-- Two steps that complete a put of `e` and a latest query, the query answering `seen`. -/
def PutAndLatestEnd (s : State) (e seen : SampleEntry) : Prop :=
  ∃ t : State, Host.Core.run Sys2Proof.core 2 s = .next t ∧
    t.respM = some (.ok (.entry (packEntry seen))) ∧ t.respP = some (.ok .none) ∧
    t.srb.newest 0 = e ∧ t.portM = [] ∧ t.portP = []

section Waiting

variable {s : State} {e : SampleEntry} (hhead : s.srb.head.toNat < 600)
  (hM : s.portM = [encode .srbLatest]) (hP : s.portP = [encode (.srbPut e)])
include hhead hM hP

/-- With port M served before port P the query sees none of the put. -/
theorem query_before_put (hcount : s.srb.count.toNat ≠ 0) (hchoice : s.choice = .M) :
    PutAndLatestEnd s e (s.srb.newest 0) := by
  obtain ⟨ts, n, hspend⟩ := spend_eq s
  have hquery :=
    step_of_issue_of_decode (issue_of_choice_M hM hP hchoice) (decode_encode .srbLatest)
  rw [hspend, exec_srbLatest_of_nonempty (by exact hcount)] at hquery
  have hput := step_of_issue_of_decode (issue_of_P_alone (s := { s with
      portM := [], turns := ts, seq := n,
      respM := some (.ok (.entry (packEntry (s.srb.newest 0)))) }) rfl hP)
    (decode_encode (.srbPut e))
  rw [exec_srbPut e _ (by exact hhead)] at hput
  exact ⟨_, run_two hquery hput, rfl, rfl, Srb.newest_stored_zero e s.srb hhead, rfl, rfl⟩

/-- With port P served before port M the query sees all of the put. -/
theorem put_before_query (hchoice : s.choice = .P) : PutAndLatestEnd s e e := by
  obtain ⟨ts, n, hspend⟩ := spend_eq s
  have hput := step_of_issue_of_decode (issue_of_choice_P hM hP hchoice) (decode_encode (.srbPut e))
  rw [hspend, exec_srbPut e _ (by exact hhead)] at hput
  have hquery := step_of_issue_of_decode (issue_of_M_alone (s := { s with
      srb := s.srb.stored e, portP := [], turns := ts, seq := n,
      respP := some (.ok .none) }) hM rfl)
    (decode_encode .srbLatest)
  have hnewest := Srb.newest_stored_zero e s.srb hhead
  have hcount : (s.srb.stored e).count.toNat ≠ 0 := by rw [Srb.stored_count]; omega
  rw [exec_srbLatest_of_nonempty (by exact hcount)] at hquery
  exact ⟨_, run_two hput hquery, by rw [hnewest], rfl, hnewest, rfl, rfl⟩

end Waiting

/-- Settles O7: whichever port the choice serves, the other is alone in the second step, and `turns`
makes either choice. -/
theorem concurrentPutAndLatestHaveTwoOutcomes :
    Obligations.ConcurrentPutAndLatestHaveTwoOutcomes := by
  unfold Obligations.ConcurrentPutAndLatestHaveTwoOutcomes
  rintro s e ⟨hhead, _⟩ hcount hM hP
  refine ⟨?_, ?_, ?_⟩
  · cases hchoice : s.choice with
    | M =>
      obtain ⟨t, hrun, hseen, hrest⟩ := query_before_put hhead hM hP hcount hchoice
      exact ⟨t, hrun, .inr hseen, hrest⟩
    | P =>
      obtain ⟨t, hrun, hseen, hrest⟩ := put_before_query hhead hM hP hchoice
      exact ⟨t, hrun, .inl hseen, hrest⟩
  · obtain ⟨t, hrun, hseen, _⟩ :=
      put_before_query (s := { s with turns := [.P] }) hhead hM hP rfl
    exact ⟨t, hrun, hseen⟩
  · obtain ⟨t, hrun, hseen, _⟩ :=
      query_before_put (s := { s with turns := [.M] }) hhead hM hP hcount rfl
    exact ⟨t, hrun, hseen⟩

/-! ## Runs as sequences of whole operations (R59) -/

/-- Performing a sequence of transactions does not look at what the ports still have to issue. -/
theorem performAll_with_ports {ops : List (Port × Request)} {s t : State}
    (h : performAll ops s = .next t) (pm pp : List Request) (ts : List Port) (n : Nat) :
    performAll ops { s with portM := pm, portP := pp, turns := ts, seq := n } =
      .next { t with portM := pm, portP := pp, turns := ts, seq := n } := by
  induction ops generalizing s with
  | nil =>
    cases h
    rfl
  | cons op ops ih =>
    obtain ⟨p, r⟩ := op
    rw [performAll] at h ⊢
    cases hp : perform p r s with
    | next u =>
      rw [hp] at h
      rw [perform_with_ports hp]
      exact ih h
    | fault x => rw [hp] at h; cases h
    | refused x => rw [hp] at h; cases h

/-- Performing a transaction takes nothing from the ports. -/
theorem perform_queue {p : Port} {r : Request} {s t : State} (h : perform p r s = .next t)
    (q : Port) : t.queue q = s.queue q := by
  obtain ⟨_, _, hrest⟩ := performAnswersOnItsOwnPort p r s t h
  rw [hrest]
  cases q <;> rfl

/-- A transaction taken from a port and performed is the transaction performed with the ports as
they were. -/
theorem perform_before_issue {s t u : State} {p : Port} {r : Request}
    (hissue : s.issue = some (p, r, u)) (h : perform p r u = .next t) :
    perform p r s =
      .next { t with portM := s.portM, portP := s.portP, turns := s.turns, seq := s.seq } := by
  obtain ⟨_, _, hfsp, hsrb, hrespM, hrespP⟩ := issue_cases hissue
  have hs : { u with portM := s.portM, portP := s.portP, turns := s.turns, seq := s.seq } = s := by
    rw [hfsp, hsrb, hrespM, hrespP]
  rw [← perform_with_ports h, hs]

/-- What a run did, as one sequence of whole operations that each port's queue begins with. -/
theorem run_eq_performAll {n : Nat} {s t : State}
    (h : Host.Core.run Sys2Proof.core n s = .next t) :
    ∃ ops : List (Port × Request), ops.length ≤ n ∧
      (∀ q, s.queue q = ofPort q ops ++ t.queue q) ∧
      ∃ u, performAll ops s = .next u ∧ u.fsp = t.fsp ∧ u.srb = t.srb ∧
        u.respM = t.respM ∧ u.respP = t.respP := by
  induction n generalizing s with
  | zero =>
    cases h
    exact ⟨[], Nat.le_refl 0, fun _ => rfl, _, rfl, rfl, rfl, rfl, rfl⟩
  | succ n ih =>
    obtain ⟨s', hstep, hrun⟩ := run_succ_cases h
    obtain ⟨ops, hlen, hqueue, u, hperform, hrecords⟩ := ih hrun
    obtain ⟨_, rfl⟩ | ⟨p, r, v, hissue, hp⟩ := step_cases hstep
    · exact ⟨ops, by omega, hqueue, u, hperform, hrecords⟩
    · obtain ⟨hserved, hother, _⟩ := issue_cases hissue
      refine ⟨(p, r) :: ops, by simpa using hlen, ?_,
        { u with portM := s.portM, portP := s.portP, turns := s.turns, seq := s.seq }, ?_, hrecords⟩
      · intro q
        by_cases hq : p = q
        · subst hq
          rw [hserved, ofPort, if_pos rfl, List.cons_append, ← hqueue, perform_queue hp]
        · rw [hother q (Ne.symm hq), ofPort, if_neg hq, ← hqueue, perform_queue hp]
      · rw [performAll, perform_before_issue hissue hp]
        exact performAll_with_ports hperform _ _ _ _

/-- Settles O8, by induction on the number of steps. -/
theorem runsInterleaveThePortsInOrder : Obligations.RunsInterleaveThePortsInOrder := by
  unfold Obligations.RunsInterleaveThePortsInOrder
  intro n s t h
  obtain ⟨ops, hlen, hqueue, hperform⟩ := run_eq_performAll h
  exact ⟨ops, hlen, hqueue .M, hqueue .P, hperform⟩

/-! ## After reset (R37, R250, R251) -/

/-- Settles O13, by evaluation of the reset state. -/
theorem resetStateIsAsSpecified : Obligations.ResetStateIsAsSpecified := by
  unfold Obligations.ResetStateIsAsSpecified
  exact ⟨rfl, rfl, rfl, rfl, rfl, rfl, fun _ => rfl, fun _ => rfl⟩

/-- Settles O14: each answer depends on the cursors alone when nothing is captured or stored. -/
theorem firstAnswersAfterReset : Obligations.FirstAnswersAfterReset := by
  unfold Obligations.FirstAnswersAfterReset
  intro s hstate hpos hdlen _ hcount
  refine ⟨?_, ?_, ?_, ?_, ?_, ?_, ?_⟩
  · rw [exec_fspStat, packStatus, hstate, hpos, hdlen]
    rfl
  · intro b hb
    exact idleDiscardsEveryOtherByte b s hstate hb
  · rw [exec_srbCount, hcount]
    rfl
  · exact exec_srbFull_eq (by rw [Srb.isFull, hcount]; rfl)
  · exact exec_srbLatest_of_empty (by rw [hcount]; rfl)
  · intro offsetMs now intervalMs h0 h1
    have hscan : s.srb.scan (now - offsetMs) 0 s.srb.count.toNat = none := by rw [hcount]; rfl
    rw [exec_srbByofs, Srb.byOffset_of_scan_none h0 h1 hscan]
    rfl
  · intro now intervalMs
    exact exec_srbByofs_out_of_range (.inl rfl)

end Sys2Proof.Machine
end

section
/-!
PROOFS. The laws of the checksum (spec/40_crc16.md): one bit of it is linear and loses nothing, so
its byte step has a table form, and a changed byte is never hidden.
-/

namespace Sys2Proof.Machine

/-! ## Applying one bit several times (R100) -/

theorem repeated_succ {α : Type} (f : α → α) (n : Nat) (a : α) :
    repeated f (n + 1) a = f (repeated f n a) := by
  induction n generalizing a with
  | zero => rfl
  | succ n ih => exact ih (f a)

/-- What `crc_update` applies its eight bits to: the byte exclusive-ored into bits 15:8. -/
def crcEnter (acc : BitVec 16) (b : Byte) : BitVec 16 := acc ^^^ (b.setWidth 16 <<< 8)

/-- `crc_update` in this block's configuration (R100, CRC_REFLECT = false). -/
theorem crcUpdate_eq (acc : BitVec 16) (b : Byte) :
    crcUpdate acc b = repeated crcBit 8 (crcEnter acc b) := rfl

theorem crcByte_toNat (b : Byte) : (b.setWidth 16 <<< 8).toNat = b.toNat * 2 ^ 8 := by
  have := b.isLt
  rw [BitVec.toNat_shiftLeft, BitVec.toNat_setWidth, Nat.shiftLeft_eq]
  omega

/-- One bit, over numbers. -/
theorem crcBit_toNat (a : BitVec 16) : (crcBit a).toNat =
    if a.toNat / 2 ^ 15 % 2 = 1 then (a.toNat * 2 % 2 ^ 16) ^^^ 0x1021
    else a.toNat * 2 % 2 ^ 16 := by
  have hmsb : a.msb = decide (a.toNat / 2 ^ 15 % 2 = 1) := by
    have := a.isLt
    rw [BitVec.msb_eq_decide]
    exact decide_eq_decide.mpr (by omega)
  have hshift : (a <<< 1).toNat = a.toNat * 2 % 2 ^ 16 := by
    rw [BitVec.toNat_shiftLeft, Nat.shiftLeft_eq]
  simp only [crcBit, hmsb, decide_eq_true_eq, apply_ite BitVec.toNat, BitVec.toNat_xor, hshift]
  rfl

/-- Settles O21: the nine numbers are the accumulator after each bit. -/
theorem crcUpdateIsTheBitLoop : Obligations.CrcUpdateIsTheBitLoop := by
  unfold Obligations.CrcUpdateIsTheBitLoop
  intro acc b
  refine ⟨fun k => (repeated crcBit k (crcEnter acc b)).toNat, ?_, ?_, rfl⟩
  · show (crcEnter acc b).toNat = _
    rw [crcEnter, BitVec.toNat_xor, crcByte_toNat]
  · intro k _
    show (repeated crcBit (k + 1) _).toNat = _
    rw [repeated_succ, crcBit_toNat]

/-! ## Linearity (law (d) of section 3) -/

/-- What one bit subtracts when a one falls out. -/
theorem crcBit_eq (a : BitVec 16) : crcBit a = a <<< 1 ^^^ (if a.msb then 0x1021#16 else 0) := by
  rw [crcBit]
  split
  · rfl
  · exact (BitVec.xor_zero).symm

theorem crcBit_xor (a b : BitVec 16) : crcBit (a ^^^ b) = crcBit a ^^^ crcBit b := by
  have hpoly : ∀ p q : Bool, (if p ^^ q then 0x1021#16 else 0) =
      (if p then 0x1021#16 else 0) ^^^ (if q then 0x1021#16 else 0) := by decide
  rw [crcBit_eq, crcBit_eq, crcBit_eq, BitVec.msb_xor, hpoly, BitVec.shiftLeft_xor_distrib]
  ac_rfl

theorem repeated_crcBit_xor (n : Nat) (a b : BitVec 16) :
    repeated crcBit n (a ^^^ b) = repeated crcBit n a ^^^ repeated crcBit n b := by
  induction n generalizing a b with
  | zero => rfl
  | succ n ih => rw [repeated, crcBit_xor, ih, repeated, repeated]

/-- `crc_update` is linear in the accumulator and the byte together. -/
theorem crcUpdate_xor (a c : BitVec 16) (x y : Byte) :
    crcUpdate (a ^^^ c) (x ^^^ y) = crcUpdate a x ^^^ crcUpdate c y := by
  have henter : crcEnter (a ^^^ c) (x ^^^ y) = crcEnter a x ^^^ crcEnter c y := by
    rw [crcEnter, crcEnter, crcEnter, BitVec.setWidth_xor, BitVec.shiftLeft_xor_distrib]
    ac_rfl
  rw [crcUpdate_eq, henter, repeated_crcBit_xor, crcUpdate_eq, crcUpdate_eq]

theorem foldl_crcUpdate_xor {d e : Span} (h : d.length = e.length) (a c : BitVec 16) :
    (List.zipWith (fun x y => x ^^^ y) d e).foldl crcUpdate (a ^^^ c) =
      d.foldl crcUpdate a ^^^ e.foldl crcUpdate c := by
  induction d generalizing e a c with
  | nil =>
    obtain rfl := List.length_eq_zero_iff.mp h.symm
    rfl
  | cons x d ih =>
    obtain ⟨y, e, rfl⟩ := List.exists_cons_of_length_eq_add_one h.symm
    rw [List.zipWith_cons_cons, List.foldl_cons, crcUpdate_xor]
    exact ih (Nat.succ.inj h) _ _

/-! ## The table form (R105) -/

/-- Bits that shift out zeros only shift. -/
theorem repeated_crcBit_of_lt {n : Nat} {a : BitVec 16} (h : a.toNat * 2 ^ n < 2 ^ 16) :
    repeated crcBit n a = a <<< n := by
  induction n with
  | zero => exact (BitVec.shiftLeft_zero a).symm
  | succ n ih =>
    rw [pow_succ, ← Nat.mul_assoc] at h
    have hn : (a <<< n).toNat = a.toNat * 2 ^ n := by
      rw [BitVec.toNat_shiftLeft, Nat.shiftLeft_eq, Nat.mod_eq_of_lt (by omega)]
    have hmsb : (a <<< n).msb = false := by
      rw [BitVec.msb_eq_decide, hn]
      exact decide_eq_false (by omega)
    rw [repeated_succ, ih (by omega), crcBit, hmsb, BitVec.shiftLeft_add]
    rfl

/-- The low byte enters unchanged: `crc_update` of the accumulator is its low byte shifted up,
exclusive-ored with the entry of the table at its high byte exclusive-or the byte. -/
theorem crcUpdate_table (acc : BitVec 16) (b : Byte) :
    crcUpdate acc b = (acc <<< 8) ^^^ crcUpdate 0 (acc.extractLsb' 8 8 ^^^ b) := by
  have hsplit : crcEnter acc b =
      (acc.extractLsb' 0 8).setWidth 16 ^^^ crcEnter 0 (acc.extractLsb' 8 8 ^^^ b) := by
    ext i hi
    by_cases h8 : i < 8
    · simp [crcEnter, h8, BitVec.getLsbD_eq_getElem hi]
    · simp [crcEnter, h8, show i - 8 < 8 by omega, show 8 + (i - 8) = i by omega,
        BitVec.getLsbD_eq_getElem hi]
  have hlow := (acc.extractLsb' 0 8).isLt
  have hshift : (acc.extractLsb' 0 8).setWidth 16 <<< 8 = acc <<< 8 := by
    ext i hi
    simp [show i - 8 < 8 by omega, BitVec.getLsbD_eq_getElem (show i - 8 < 16 by omega)]
  rw [crcUpdate_eq, hsplit, repeated_crcBit_xor,
    repeated_crcBit_of_lt (by rw [BitVec.toNat_setWidth]; omega), ← crcUpdate_eq, hshift]

/-- Settles O27: the table form, and the listed entries by evaluation. -/
theorem crcTableFormAgrees : Obligations.CrcTableFormAgrees := by
  unfold Obligations.CrcTableFormAgrees
  exact ⟨crcUpdate_table, by decide, by decide, by decide, by decide, by decide, by decide,
    by decide, by decide⟩

/-- A shift by a byte moves the low byte up. -/
theorem extract_shiftLeft_byte (v : BitVec 16) :
    (v <<< 8).extractLsb' 8 8 = v.extractLsb' 0 8 := by
  ext i hi
  simp [show 8 + i < 16 by omega, BitVec.getLsbD_eq_getElem (show i < 16 by omega)]

/-- A byte equal to the accumulator's high byte shifts the accumulator. -/
theorem crcUpdate_high (acc : BitVec 16) :
    crcUpdate acc (acc.extractLsb' 8 8) = acc <<< 8 := by
  rw [crcUpdate_table, BitVec.xor_self]
  exact (congrArg _ crcUpdate_zero_zero).trans BitVec.xor_zero

/-- The two bytes of an accumulator that a zero byte leaves alone: by the table form its low byte is
that of the entry at its high byte, and the high byte the two bytes of the entry together. -/
theorem bytes_of_crcUpdate_zero {acc : BitVec 16} (h : crcUpdate acc 0 = acc) :
    acc.extractLsb' 0 8 = (crcUpdate 0 (acc.extractLsb' 8 8)).extractLsb' 0 8 ∧
    acc.extractLsb' 8 8 = (crcUpdate 0 (acc.extractLsb' 8 8)).extractLsb' 0 8 ^^^
      (crcUpdate 0 (acc.extractLsb' 8 8)).extractLsb' 8 8 := by
  have htable : acc = (acc <<< 8) ^^^ crcUpdate 0 (acc.extractLsb' 8 8) := by
    have := crcUpdate_table acc 0
    rwa [h, show acc.extractLsb' 8 8 ^^^ 0 = acc.extractLsb' 8 8 from BitVec.xor_zero] at this
  have hlow : (acc <<< 8).extractLsb' 0 8 = 0 := by
    ext i hi
    simp [hi]
  have hhigh : (acc <<< 8).extractLsb' 8 8 = acc.extractLsb' 0 8 := extract_shiftLeft_byte acc
  have hfirst : acc.extractLsb' 0 8 = (crcUpdate 0 (acc.extractLsb' 8 8)).extractLsb' 0 8 := by
    conv_lhs => rw [htable, BitVec.extractLsb'_xor, hlow]
    exact BitVec.zero_xor
  refine ⟨hfirst, ?_⟩
  conv_lhs => rw [htable, BitVec.extractLsb'_xor, hhigh, hfirst]

/-- The entries of the table whose two bytes exclusive-or to their index. -/
theorem table_index_of_bytes : ∀ high : Byte,
    high = (crcUpdate 0 high).extractLsb' 0 8 ^^^ (crcUpdate 0 high).extractLsb' 8 8 →
      high = 0x00 ∨ high = 0xF0 := by decide +kernel

/-- The two bytes of an accumulator, joined, are the accumulator. -/
theorem bytes_append (v : BitVec 16) : v.extractLsb' 8 8 ++ v.extractLsb' 0 8 = v :=
  (BitVec.extractLsb'_append_extractLsb'_eq_extractLsb' (start₁ := 0) (len₁ := 8) rfl).trans
    BitVec.extractLsb'_eq_self

/-- Settles O22: in the table form the high byte of such an accumulator decides its low byte, and
two entries of the table have the high byte it needs. -/
theorem zeroByteLeavesTwoAccumulators : Obligations.ZeroByteLeavesTwoAccumulators := by
  unfold Obligations.ZeroByteLeavesTwoAccumulators
  intro acc
  constructor
  · intro h
    obtain ⟨hlow, hhigh⟩ := bytes_of_crcUpdate_zero h
    have hacc := bytes_append acc
    rw [hlow] at hacc
    obtain h0 | hF0 := table_index_of_bytes _ hhigh
    · exact .inl (by rw [← hacc, h0]; decide)
    · exact .inr (by rw [← hacc, hF0]; decide)
  · rintro (rfl | rfl) <;> decide

/-! ## Spans (laws (a), (c), (d), (e), (f)) -/

/-- CRC.BYTES from an accumulator on is the accumulation over the span. -/
theorem crcBytesFrom_eq (d : Span) (acc : BitVec 16) (s : State) :
    ∃ t, crcBytesFrom acc d s = some (t, d.foldl crcUpdate acc) ∧
      t = { s with respM := t.respM } := by
  induction d generalizing acc s with
  | nil => exact ⟨s, rfl, rfl⟩
  | cons b rest ih =>
    obtain ⟨t, ht, hrest⟩ := ih (crcUpdate acc b)
      (s.answer .M (.ok (.checksum (crcUpdate acc b))))
    exact ⟨t, ht, hrest⟩

/-- Settles O24: each CRC.STEP is one accumulation. -/
theorem crcBytesEqualsCrcSpan : Obligations.CrcBytesEqualsCrcSpan := by
  unfold Obligations.CrcBytesEqualsCrcSpan
  intro d s
  exact crcBytesFrom_eq d 0 s

/-- Settles O25: linearity from zero accumulators, leading zero bytes by
`crc16_replicate_zero_append`, and the two bytes of a checksum each shift it out by one byte. -/
theorem crcIsLinearWithZeroResidue : Obligations.CrcIsLinearWithZeroResidue := by
  unfold Obligations.CrcIsLinearWithZeroResidue
  refine ⟨fun d e h => foldl_crcUpdate_xor h 0 0, crc16_replicate_zero_append, ?_⟩
  intro d
  rw [crc16, List.foldl_append, List.foldl_cons, List.foldl_cons, List.foldl_nil, ← crc16,
    crcUpdate_high, ← extract_shiftLeft_byte, crcUpdate_high, ← BitVec.shiftLeft_add]
  exact BitVec.shiftLeft_eq_zero (by decide)

/-- The bit shifted out is bit 0 of the result, the polynomial being odd. -/
theorem crcBit_getLsbD_zero (a : BitVec 16) : (crcBit a).getLsbD 0 = a.msb := by
  rw [crcBit_eq]
  cases a.msb <;> simp

/-- So a bit loses nothing. -/
theorem crcBit_injective : Function.Injective crcBit := by
  intro a b h
  have hmsb : a.msb = b.msb := by rw [← crcBit_getLsbD_zero, h, crcBit_getLsbD_zero]
  have hshift : a <<< 1 = b <<< 1 := by
    rw [crcBit_eq, crcBit_eq, hmsb] at h
    exact (BitVec.xor_left_inj _).mp h
  have hnat := congrArg BitVec.toNat hshift
  rw [BitVec.toNat_shiftLeft, BitVec.toNat_shiftLeft, Nat.shiftLeft_eq, Nat.shiftLeft_eq] at hnat
  rw [BitVec.msb_eq_decide, BitVec.msb_eq_decide, decide_eq_decide] at hmsb
  exact BitVec.eq_of_toNat_eq (by omega)

theorem repeated_crcBit_injective (n : Nat) : Function.Injective (repeated crcBit n) := by
  induction n with
  | zero => exact Function.injective_id
  | succ n ih => exact ih.comp crcBit_injective

/-- Different accumulators stay different, whatever bytes follow. -/
theorem foldl_crcUpdate_injective (d : Span) : Function.Injective (d.foldl crcUpdate) := by
  induction d with
  | nil => exact Function.injective_id
  | cons b d ih =>
    refine ih.comp fun a c h => ?_
    exact (BitVec.xor_left_inj _).mp (repeated_crcBit_injective 8 h)

/-- Different bytes take an accumulator to different ones. -/
theorem crcUpdate_byte_injective (acc : BitVec 16) : Function.Injective (crcUpdate acc) := by
  intro x y h
  have hbyte : x.setWidth 16 <<< 8 = y.setWidth 16 <<< 8 :=
    (BitVec.xor_right_inj _).mp (repeated_crcBit_injective 8 h)
  have hnat := congrArg BitVec.toNat hbyte
  rw [crcByte_toNat, crcByte_toNat] at hnat
  exact BitVec.eq_of_toNat_eq (Nat.eq_of_mul_eq_mul_right (by decide) hnat)

/-- A span with one byte replaced by another has another checksum. -/
theorem crc16_set_ne {d : Span} {i : Nat} (hi : i < d.length) {c : Byte} (hc : c ≠ d[i]) :
    crc16 (d.set i c) ≠ crc16 d := by
  obtain ⟨before, after, hd, _, hset⟩ := List.exists_of_set (a' := c) hi
  intro h
  rw [hset] at h
  conv_rhs at h => rw [hd]
  rw [crc16, crc16, List.foldl_append, List.foldl_append, List.foldl_cons, List.foldl_cons] at h
  exact hc (crcUpdate_byte_injective _ (foldl_crcUpdate_injective _ h))

/-- Settles O26: a byte with one bit inverted is another byte, and no changed byte is hidden. -/
theorem crcDetectsEverySingleBitFlip : Obligations.CrcDetectsEverySingleBitFlip := by
  unfold Obligations.CrcDetectsEverySingleBitFlip
  intro d i bit hi hbit
  have hone : ∀ k < 8, 1#8 <<< k ≠ 0#8 := by decide
  rw [List.getD_eq_getElem d 0 hi]
  refine crc16_set_ne hi fun h => hone bit hbit ?_
  exact (BitVec.xor_right_inj d[i]).mp (h.trans BitVec.xor_zero.symm)

/-- Settles O20: the decoder and the operation by their equations, the values by evaluation. -/
theorem crcStepAnswersTheUpdate : Obligations.CrcStepAnswersTheUpdate := by
  unfold Obligations.CrcStepAnswersTheUpdate
  exact ⟨fun _ _ => rfl, exec_crcStep, by decide, by decide, by decide⟩

end Sys2Proof.Machine
end

section
/-!
PROOFS. The laws of the hex codec (spec/41_hex_codec.md section 4), and the pseudo-operations that
give what the span operations give (spec/30_encoding.md R79).
-/

namespace Sys2Proof.Machine

/-! ## Encoding and decoding as inverses -/

/-- What decodes is exactly the text of a span, which it decodes to. -/
theorem hexDecode_eq_ok {text d : Span} : hexDecode text = .ok d ↔ hexEncode d = text := by
  constructor
  · intro h
    by_cases hodd : text.length % 2 = 1
    · rw [hexDecode_of_odd hodd] at h
      cases h
    have heven : text.length % 2 = 0 := by omega
    by_cases hinvalid : ∃ c ∈ text, hexval c = none
    · rw [hexDecode_of_even heven, hexDecodePairs_of_invalid heven hinvalid] at h
      cases h
    obtain ⟨d', rfl⟩ := exists_hexEncode_eq heven fun c hc hn => hinvalid ⟨c, hc, hn⟩
    rw [hexDecode_hexEncode] at h
    cases h
    rfl
  · rintro rfl
    exact hexDecode_hexEncode d

theorem hexEncode_append (x y : Span) : hexEncode (x ++ y) = hexEncode x ++ hexEncode y := by
  induction x with
  | nil => rfl
  | cons b x ih => simp only [List.cons_append, hexEncode, ih]

/-- A text that is two texts of which the one in front has even length is the text of a span exactly
when both are. -/
theorem hexEncode_eq_append {text rest w : Span} (heven : text.length % 2 = 0) :
    hexEncode w = text ++ rest ↔ ∃ x y, hexEncode x = text ∧ hexEncode y = rest ∧ w = x ++ y := by
  constructor
  · intro h
    have hlen := congrArg List.length h
    rw [hexEncode_length, List.length_append] at hlen
    have htake : (hexEncode (w.take (text.length / 2))).length = text.length := by
      rw [hexEncode_length, List.length_take]
      omega
    rw [← List.take_append_drop (text.length / 2) w, hexEncode_append] at h
    obtain ⟨hx, hy⟩ := List.append_inj h htake
    exact ⟨_, _, hx, hy, (List.take_append_drop _ _).symm⟩
  · rintro ⟨x, y, rfl, rfl, rfl⟩
    exact hexEncode_append x y

/-- Settles O33: what decodes is the text of a span, and texts split where spans do. -/
theorem hexCodecIsBijective : Obligations.HexCodecIsBijective := by
  unfold Obligations.HexCodecIsBijective
  refine ⟨hexDecode_hexEncode, fun t x => hexDecode_eq_ok.mp, hexEncode_append, ?_⟩
  intro t v w heven
  simp only [hexDecode_eq_ok]
  exact hexEncode_eq_append heven

/-! ## The pseudo-operations (R79) -/

theorem hexEncs_eq (d : Span) (s : State) :
    ∃ t, hexEncs d s = some (t, hexEncode d) ∧ t = { s with respM := t.respM } := by
  induction d generalizing s with
  | nil => exact ⟨s, rfl, rfl⟩
  | cons b rest ih =>
    obtain ⟨t, ht, hrest⟩ := ih (s.answer .M (.ok (.chars (hexHigh b) (hexLow b))))
    have hcall : call (.hexEncb b) s = some (s.answer .M (.ok (.chars (hexHigh b) (hexLow b))),
      .ok (.chars (hexHigh b) (hexLow b))) := rfl
    refine ⟨t, ?_, hrest⟩
    simp only [hexEncs, hcall, ht, hexEncode]

theorem hexDecsPairs_eq (text : Span) (s : State) :
    ∃ t, hexDecsPairs text s = some (t, hexDecodePairs text) ∧ t = { s with respM := t.respM } := by
  induction text using List.twoStepInduction generalizing s with
  | nil => exact ⟨s, rfl, rfl⟩
  | singleton c => exact ⟨s, rfl, rfl⟩
  | cons_cons cHi cLo rest ih _ =>
    have hcall : call (.hexDecp cHi cLo) s =
      some (s.answer .M (Response.of .byte (hexPair cHi cLo)),
        Response.of .byte (hexPair cHi cLo)) := rfl
    cases hpair : hexPair cHi cLo with
    | error e =>
      rw [hpair] at hcall
      refine ⟨s.answer .M (.error e), ?_, rfl⟩
      simp only [hexDecsPairs, hcall, Response.of, hexDecodePairs, hpair]
    | ok b =>
      rw [hpair] at hcall
      obtain ⟨t, ht, hrest⟩ := ih (s.answer .M (.ok (.byte b)))
      refine ⟨t, ?_, hrest⟩
      cases hdec : hexDecodePairs rest <;>
        simp only [hexDecsPairs, hcall, Response.of, hexDecodePairs, hpair, ht, hdec]

/-- CRC.UNFIELD of the characters of a checksum gives it back. -/
theorem crcUnfieldOp_checksumField (v : BitVec 16) (s : State) :
    ∃ t, crcUnfieldOp (checksumField v) s = some (t, .ok v) ∧ t = { s with respM := t.respM } := by
  have hcall : call (.hexDec (checksumField v)) s =
      some (s.answer .M (Response.of .span (hexDecode (checksumField v))),
        Response.of .span (hexDecode (checksumField v))) := rfl
  rw [checksumField, hexDecode_hexEncode] at hcall
  refine ⟨s.answer .M (.ok (.span [v.extractLsb' 8 8, v.extractLsb' 0 8])), ?_, rfl⟩
  rw [crcUnfieldOp, checksumField, hcall]
  simp only [Response.of, bytes_append]

/-- Settles O34: each pseudo-operation calls an operation whose answer is known, and changes nothing
but the answer with each call. -/
theorem pseudoOperationsAgree : Obligations.PseudoOperationsAgree := by
  unfold Obligations.PseudoOperationsAgree
  refine ⟨hexEncs_eq, ?_, ?_, fun s => ⟨_, rfl, rfl⟩⟩
  · intro text s
    unfold hexDecs hexDecode
    split
    · exact ⟨s, rfl, rfl⟩
    · exact hexDecsPairs_eq text s
  · intro v s
    obtain ⟨u, hu, hrest⟩ :=
      crcUnfieldOp_checksumField v (s.answer .M (.ok (.span (checksumField v))))
    exact ⟨_, u, rfl, hu, hrest⟩

end Sys2Proof.Machine
end

section
/-!
PROOFS. Laws of the frame parser over several bytes (spec/42_frame_parser.md section 4): what a push
can store and hand over, when it aborts, and that a complete frame is captured whole from any state.
-/

namespace Sys2Proof.Machine

/-! ## What a push stores (R150) -/

/-- A push writes at most one element of CAP: the one at 0 on a start marker, else the one at
FSP_POS. -/
theorem Fsp.push_get_of_ne {maxFrame : Nat} {b : Byte} {f g : Fsp} {o : Option Span}
    (h : f.push maxFrame b = .ok (g, o)) {i : Nat}
    (hi : i ≠ if b = startMarker then 0 else f.pos.toNat) :
    Memory.get g.cap i = Memory.get f.cap i := by
  obtain ⟨hb, rfl, _⟩ | ⟨_, _, rfl, _⟩ | ⟨_, _, rfl, _⟩ | ⟨hb, _, _, _, _, rfl⟩ |
    ⟨hb, _, _, _, rfl⟩ | ⟨hb, _, _, _, _, _, rfl⟩ | ⟨rfl, _, _, rfl, _⟩ := Fsp.push_cases h
  · rw [if_pos hb] at hi
    exact Memory.get_set_of_ne _ _ hi
  · rfl
  · rfl
  · rw [if_neg hb] at hi
    rw [apply_ite Fsp.cap, Fsp.completeHeader_cap, ite_self]
    exact Memory.get_set_of_ne _ _ hi
  · rw [if_neg hb] at hi
    rw [apply_ite Fsp.cap, ite_self]
    exact Memory.get_set_of_ne _ _ hi
  · rw [if_neg hb] at hi
    exact Memory.get_set_of_ne _ _ hi
  · rw [if_neg startMarker_ne_endMarker.symm] at hi
    exact Memory.get_set_of_ne _ _ hi

/-- Settles O41: a push that completes answers its span or the empty frame, and stores at most one
byte. -/
theorem pushFrame : Obligations.PushFrame := by
  unfold Obligations.PushFrame
  intro b s t h
  obtain ⟨f, o, hpush, rfl⟩ := exec_fspPush_cases h
  refine ⟨rfl, ⟨o.isSome, o.getD [], rfl, ?_⟩, fun i hi => Fsp.push_get_of_ne hpush hi⟩
  intro hnone
  rw [Option.isSome_eq_false_iff, Option.isNone_iff_eq_none] at hnone
  rw [hnone, Option.getD_none]

/-- A stored byte leaves CAP canonical and FSP_POS inside it, for any MAX_FRAME nine bits hold. -/
theorem Fsp.bounded_stored {maxFrame : Nat} (b : Byte) {f : Fsp} (h : f.Bounded maxFrame)
    (h511 : maxFrame ≤ 511) (hp : f.pos.toNat < maxFrame) :
    Memory.wf maxFrame (f.stored b).cap = true ∧ (f.stored b).pos.toNat ≤ maxFrame := by
  obtain ⟨hwf, _⟩ := h
  rw [Fsp.stored_pos b f (by omega)]
  exact ⟨Memory.wf_set maxFrame f.cap _ b hwf hp, hp⟩

/-- Completing a header leaves Header, with the cursor where it was or at 0. -/
theorem Fsp.completeHeader_bounds (f : Fsp) :
    f.completeHeader.state ≠ .header ∧ f.completeHeader.pos.toNat ≤ f.pos.toNat := by
  obtain ⟨_, h⟩ | ⟨len, _, h⟩ := f.completeHeader_cases
  · rw [h]
    exact ⟨nofun, Nat.zero_le _⟩
  · rw [h]
    refine ⟨?_, Nat.le_refl _⟩
    by_cases hz : len = 0 <;> simp [hz]

/-- Every push keeps the bounds (R150). -/
theorem Fsp.push_bounded {maxFrame : Nat} {b : Byte} {f g : Fsp} {o : Option Span}
    (h13 : 13 ≤ maxFrame) (h511 : maxFrame ≤ 511) (h : f.Bounded maxFrame)
    (hpush : f.push maxFrame b = .ok (g, o)) : g.Bounded maxFrame := by
  have ⟨hwf, hpos, hheader⟩ := h
  obtain ⟨hb, rfl, _⟩ | ⟨_, _, rfl, _⟩ | ⟨_, _, rfl, _⟩ | ⟨hb, _, hs, hp, _, rfl⟩ |
    ⟨hb, hs, hp, _, rfl⟩ | ⟨hb, _, hs, _, hp, _, rfl⟩ | ⟨rfl, _, hp, rfl, _⟩ := Fsp.push_cases hpush
  · exact ⟨Memory.wf_set maxFrame f.cap 0 startMarker hwf (by omega), by simp; omega, by simp⟩
  · exact h
  · exact ⟨hwf, Nat.zero_le _, nofun⟩
  · obtain ⟨hwf', hpos'⟩ := Fsp.bounded_stored b h h511 hp
    have h11 := hheader hs
    have hstored := Fsp.stored_pos b f (by omega)
    split
    · obtain ⟨hstate, hle⟩ := (f.stored b).completeHeader_bounds
      exact ⟨by rwa [Fsp.completeHeader_cap], hle.trans hpos', fun hs' => absurd hs' hstate⟩
    · exact ⟨hwf', hpos', fun _ => by omega⟩
  · obtain ⟨hwf', hpos'⟩ := Fsp.bounded_stored b h h511 hp
    split
    · exact ⟨hwf', hpos', nofun⟩
    · exact ⟨hwf', hpos', by simp [hs]⟩
  · obtain ⟨hwf', hpos'⟩ := Fsp.bounded_stored b h h511 hp
    exact ⟨hwf', hpos', by simp [hs]⟩
  · obtain ⟨hwf', _⟩ := Fsp.bounded_stored endMarker h h511 hp
    exact ⟨hwf', Nat.zero_le _, nofun⟩

/-- Settles O47: only a header byte is stored without a test of FSP_POS, and a header has at most 11
bytes, below every legal MAX_FRAME. -/
theorem noPushLeavesTheCaptureBuffer : Obligations.NoPushLeavesTheCaptureBuffer := by
  unfold Obligations.NoPushLeavesTheCaptureBuffer
  intro maxFrame b f h13 h511 h
  have ⟨_, _, hheader⟩ := h
  obtain ⟨g, o, hpush⟩ :=
    Fsp.push_answers maxFrame b f (fun hs => by have := hheader hs; omega)
  exact ⟨g, o, hpush, Fsp.push_bounded h13 h511 h hpush⟩

/-! ## When a push aborts (R234) -/

/-- Whether a push aborts is read off its result. -/
theorem Fsp.aborts_iff {maxFrame : Nat} {b : Byte} {f g : Fsp} {o : Option Span}
    (h : f.push maxFrame b = .ok (g, o)) :
    (∃ f', f.push maxFrame b = .ok (f', none) ∧ f'.state = .idle) ↔
      o = none ∧ g.state = .idle := by
  rw [h]
  constructor
  · rintro ⟨f', hf', hidle⟩
    cases hf'
    exact ⟨rfl, hidle⟩
  · rintro ⟨rfl, hidle⟩
    exact ⟨g, rfl, hidle⟩

/-- A completed header is Idle exactly when its LEN field is invalid (R144). -/
theorem Fsp.completeHeader_idle_iff (f : Fsp) : f.completeHeader.state = .idle ↔
    lenField (f.byte 7) (f.byte 8) (f.byte 9) = none := by
  obtain ⟨hlen, h⟩ | ⟨len, hlen, h⟩ := f.completeHeader_cases
  · simp [h, hlen]
  · by_cases hz : len = 0 <;> simp [h, hlen, hz]

/-- Settles O48: the result of a push in each state, for a start marker, an end marker and any other
byte. -/
theorem abortCausesAreComplete : Obligations.AbortCausesAreComplete := by
  unfold Obligations.AbortCausesAreComplete
  rintro b f ⟨⟨_, _, hheader, hdata, htail, hmax⟩, _⟩ hidle
  by_cases hb : b = startMarker
  · rw [Fsp.aborts_iff (hb ▸ Fsp.push_start 273 f)]
    exact ⟨fun ⟨_, h⟩ => (nomatch h), fun ⟨h, _⟩ => absurd hb h⟩
  have hstart : b ≠ 0x26#8 := hb
  cases hs : f.state with
  | idle => exact absurd hs hidle
  | header =>
    by_cases he : b = endMarker
    · rw [Fsp.aborts_iff (he ▸ Fsp.push_header_end 273 f hs)]
      exact ⟨fun _ => ⟨hb, .inl ⟨rfl, he⟩⟩, fun _ => ⟨rfl, rfl⟩⟩
    have hend : b ≠ 0x2A#8 := he
    obtain ⟨_, h11, _⟩ := hheader hs
    have hpos := Fsp.stored_pos b f (by omega)
    have hbyte (i : Nat) (hi : i ≠ f.pos.toNat) := Fsp.byte_stored_of_ne b f hi
    rw [Fsp.aborts_iff (Fsp.push_header_store 273 b f hb he hs (by omega))]
    by_cases hlast : f.pos.toNat = 11
    · rw [if_pos (by omega), Fsp.completeHeader_idle_iff, hbyte 7 (by omega), hbyte 8 (by omega),
        hbyte 9 (by omega)]
      simp [hstart, hend, hlast]
    · rw [if_neg (by omega)]
      simp [hs, hend, hlast]
  | data =>
    obtain ⟨_, h256, _, hlt⟩ := hdata hs
    rw [Fsp.aborts_iff (Fsp.push_data_store_eq b f hb hs (by omega) (by omega))]
    by_cases hlast : f.pos.toNat + 1 = 12 + f.dlen.toNat <;> simp [hlast]
  | crcTail =>
    by_cases he : b = endMarker
    · rw [Fsp.aborts_iff (he ▸ Fsp.push_tail_end 273 f hs (by omega))]
      simp [show b = 0x2A from he]
    have hend : b ≠ 0x2A#8 := he
    obtain ⟨_, _, hhigh⟩ := htail hs
    by_cases hk : f.pos.toNat < 12 + f.dlen.toNat + 4
    · rw [Fsp.aborts_iff (Fsp.push_tail_store 273 b f hb he hs hk (by omega))]
      simp [hs, Nat.ne_of_lt hk]
    · rw [Fsp.aborts_iff (Fsp.push_tail_abort 273 b f hb he hs (.inl (Nat.not_lt.mp hk)))]
      simp [hstart, hend, show f.pos.toNat = 12 + f.dlen.toNat + 4 by omega]

/-! ## The span handed over (R157, R158) -/

theorem Fsp.captured_length (f : Fsp) (n : Nat) : (f.captured n).length = n := by
  simp [Fsp.captured]

theorem Fsp.captured_getD (f : Fsp) {n i : Nat} (hi : i < n) :
    (f.captured n).getD i 0 = f.byte i := by
  simp [Fsp.captured, List.getD_eq_getElem?_getD, hi]

/-- A push that hands a span over takes the end marker in CrcTail, and the span is the captured
bytes followed by the marker (R148). -/
theorem Fsp.push_handed {maxFrame : Nat} {b : Byte} {f g : Fsp} {span : Span}
    (h511 : maxFrame ≤ 511) (h : f.push maxFrame b = .ok (g, some span)) :
    f.state = .crcTail ∧ span = f.captured f.pos.toNat ++ [endMarker] := by
  obtain ⟨_, _, h⟩ | ⟨_, _, _, h⟩ | ⟨_, _, _, h⟩ | ⟨_, _, _, _, h, _⟩ | ⟨_, _, _, h, _⟩ |
    ⟨_, _, _, _, _, h, _⟩ | ⟨_, hs, hp, _, h⟩ := Fsp.push_cases h
  case inr.inr.inr.inr.inr.inr =>
    rw [Fsp.captured_stored endMarker f (by omega)] at h
    exact ⟨hs, Option.some.inj h⟩
  all_goals cases h

/-- Settles O46: the span is the captured bytes of a parser in CrcTail, of which the invariant says
what the contract asks, followed by the end marker. -/
theorem handedOverSpansMeetTheContract : Obligations.HandedOverSpansMeetTheContract := by
  unfold Obligations.HandedOverSpansMeetTheContract
  rintro b s t g ⟨⟨_, _, _, _, htail, hmax⟩, ⟨hmarker, hstart, hend, hlen, htailEnd⟩, _⟩ h hg
  obtain ⟨f, o, hpush, rfl⟩ := exec_fspPush_cases h
  obtain ⟨hsome, hspan⟩ : o.isSome = true ∧ o.getD [] = g := by simpa [captureResult] using hg
  obtain ⟨span, rfl⟩ := Option.isSome_iff_exists.mp hsome
  obtain rfl : span = g := hspan
  obtain ⟨hs, rfl⟩ := Fsp.push_handed (by decide) hpush
  obtain ⟨h256, hlow, hhigh⟩ := htail hs
  have hold (i : Nat) (hi : i < s.fsp.pos.toNat) :
      (s.fsp.captured s.fsp.pos.toNat ++ [endMarker]).getD i 0 = s.fsp.byte i := by
    rw [List.getD_append _ _ _ _ (by rwa [Fsp.captured_length]), Fsp.captured_getD _ hi]
  have hlast : (s.fsp.captured s.fsp.pos.toNat ++ [endMarker]).getD s.fsp.pos.toNat 0 =
      endMarker := by
    rw [List.getD_append_right _ _ _ _ (by rw [Fsp.captured_length]), Fsp.captured_length,
      Nat.sub_self]
    rfl
  obtain ⟨k, hk⟩ := Nat.exists_eq_add_of_le hlow
  refine ⟨s.fsp.dlen.toNat, k, h256, by omega, ?_, ?_, ?_, ?_, ?_, ?_, ?_⟩
  · rw [List.length_append, Fsp.captured_length, List.length_singleton]
    omega
  · rw [hold 0 (by omega)]
    exact hmarker (by omega)
  · rw [← hk]
    exact hlast
  · intro i hi h1
    by_cases hi' : i < s.fsp.pos.toNat
    · rw [hold i hi']
      exact hstart i hi' h1
    · rw [show i = s.fsp.pos.toNat by omega, hlast]
      decide
  · intro i hi h1
    rw [hold i (by omega)]
    exact hend i (by omega) h1 (by omega)
  · rw [hold 7 (by omega), hold 8 (by omega), hold 9 (by omega)]
    exact hlen (.inr hs)
  · intro i hi h1
    rw [hold i (by omega)]
    exact htailEnd hs i (by omega) h1

/-! ## Feeding several bytes (R156, R157) -/

/-- From a record that meets the invariant any bytes can be fed. -/
theorem fspFeed_completes (xs : Span) {s : State} (h : s.fsp.Inv) :
    ∃ u frames, fspFeed xs s = some (u, frames) := by
  induction xs generalizing s with
  | nil => exact ⟨s, [], rfl⟩
  | cons b xs ih =>
    obtain ⟨g, o, hpush⟩ := Fsp.push_answers_of_inv b h
    obtain ⟨u, frames, hu⟩ := ih (s := { s with fsp := g, respM := some (.ok (captureResult o)) })
      (Fsp.push_inv h hpush)
    refine ⟨u, o.toList ++ frames, ?_⟩
    rw [← List.singleton_append, fspFeed_append xs (fspFeed_singleton hpush), hu, Option.map_some]

/-- The state of the parser after `n` bytes of a frame with `len` payload bytes. -/
def phase (len n : Nat) : FspState :=
  if n < 12 then .header else if n < 12 + len then .data else .crcTail

theorem phase_of_header {len n : Nat} (h : n < 12) : phase len n = .header := if_pos h

theorem phase_of_data {len n : Nat} (h12 : 12 ≤ n) (h : n < 12 + len) : phase len n = .data := by
  rw [phase, if_neg (by omega), if_pos h]

theorem phase_of_tail {len n : Nat} (h : 12 + len ≤ n) : phase len n = .crcTail := by
  rw [phase, if_neg (by omega), if_neg (by omega)]

/-- The parser has taken the first `n` bytes of a frame with `len` payload bytes, and nothing since.
-/
abbrev Fsp.HasTaken (frame : Span) (len n : Nat) (f : Fsp) : Prop :=
  f.state = phase len n ∧ f.pos.toNat = n ∧ f.dlen.toNat = (if n < 12 then 0 else len) ∧
    ∀ i < n, f.byte i = frame.getD i 0

/-- The start marker begins a frame, whatever state the parser was in (R141). -/
theorem Fsp.hasTaken_restart {frame : Span} (len : Nat) (h : frame.getD 0 0 = startMarker)
    (f : Fsp) : f.restart.HasTaken frame len 1 := by
  refine ⟨rfl, rfl, rfl, ?_⟩
  intro i hi
  obtain rfl : i = 0 := Nat.lt_one_iff.mp hi
  rw [Fsp.byte_restart_zero, h]

/-- The next byte stored, with the cursors of the next phase. -/
theorem Fsp.hasTaken_succ {frame : Span} {len n : Nat} {f g : Fsp} (h : f.HasTaken frame len n)
    (hn : n < 511) (hcap : g.cap = (f.stored (frame.getD n 0)).cap)
    (hpos : g.pos = (f.stored (frame.getD n 0)).pos) (hstate : g.state = phase len (n + 1))
    (hdlen : g.dlen.toNat = if n + 1 < 12 then 0 else len) : g.HasTaken frame len (n + 1) := by
  obtain ⟨_, hfpos, _, hbytes⟩ := h
  refine ⟨hstate, by rw [hpos, Fsp.stored_pos _ _ (by omega), hfpos], hdlen, ?_⟩
  intro i hi
  rw [Fsp.byte_congr hcap, Fsp.byte_stored, hfpos]
  split
  · next h => rw [h]
  · exact hbytes i (by omega)

/-- The captured bytes of a parser that has taken `n` bytes of a frame are those bytes. -/
theorem Fsp.captured_of_hasTaken {frame : Span} {len n : Nat} {f : Fsp}
    (h : f.HasTaken frame len n) (hn : n ≤ frame.length) :
    f.captured f.pos.toNat = frame.take n := by
  obtain ⟨_, hpos, _, hbytes⟩ := h
  rw [hpos]
  refine List.ext_getElem (by rw [Fsp.captured_length, List.length_take, Nat.min_eq_left hn]) ?_
  intro i hi _
  rw [Fsp.captured_length] at hi
  rw [List.getElem_take, ← List.getD_eq_getElem _ 0, Fsp.captured_getD f hi, hbytes i hi,
    List.getD_eq_getElem _ 0 (by omega)]

section Frame

variable {len : Nat} {frame : Span} (hframe : Capturable len frame)
include hframe

/-- A complete frame fits CAP. -/
theorem capturable_len_le : len ≤ 256 := by
  obtain ⟨_, _, _, _, hlen, _⟩ := hframe
  exact lenField_le hlen

/-- A complete frame is what comes before its last byte, and that byte. -/
theorem capturable_take_append : frame.take (16 + len) ++ [frame.getD (16 + len) 0] = frame := by
  obtain ⟨hlength, _⟩ := hframe
  rw [List.getD_eq_getElem _ 0 (by omega), List.take_append_getElem,
    List.take_of_length_le (by omega)]

/-- A header byte of a complete frame is stored, and the last one decodes its length (R143, R144).
-/
theorem Fsp.push_hasTaken_header {n : Nat} {f : Fsp} (h : f.HasTaken frame len n) (h1 : 1 ≤ n)
    (hn : n < 12) :
    ∃ g, f.push 273 (frame.getD n 0) = .ok (g, none) ∧ g.HasTaken frame len (n + 1) := by
  obtain ⟨_, _, hstart, hend, hlen, _⟩ := hframe
  have ⟨hstate, hpos, hdlen, hbytes⟩ := h
  rw [phase_of_header hn] at hstate
  rw [if_pos hn] at hdlen
  have hnext := Fsp.stored_pos (frame.getD n 0) f (by omega)
  refine ⟨_, Fsp.push_header_store 273 _ f (hstart n (by omega) h1) (hend n hn h1) hstate
    (by omega), ?_⟩
  by_cases hlast : n = 11
  · have hbyte (i : Nat) (hi : i < n) : (f.stored (frame.getD n 0)).byte i = frame.getD i 0 := by
      rw [Fsp.byte_stored_of_ne _ _ (by omega), hbytes i hi]
    rw [← hbyte 7 (by omega), ← hbyte 8 (by omega), ← hbyte 9 (by omega)] at hlen
    obtain ⟨hpos', hdlen', hstate'⟩ := Fsp.completeHeader_of_some hlen
    rw [if_pos (by omega)]
    refine Fsp.hasTaken_succ h (by omega) (Fsp.completeHeader_cap _) hpos' ?_ ?_
    · by_cases hz : len = 0
      · rw [hstate', if_pos hz, phase_of_tail (by omega)]
      · rw [hstate', if_neg hz, phase_of_data (by omega) (by omega)]
    · rw [hdlen', if_neg (by omega)]
  · rw [if_neg (by omega)]
    refine Fsp.hasTaken_succ h (by omega) rfl rfl ?_ ?_
    · rw [Fsp.stored_state, hstate, phase_of_header (by omega)]
    · rw [Fsp.stored_dlen, hdlen, if_pos (by omega)]

/-- A payload byte of a complete frame is stored, the last one leading to CrcTail (R146). -/
theorem Fsp.push_hasTaken_data {n : Nat} {f : Fsp} (h : f.HasTaken frame len n) (h12 : 12 ≤ n)
    (hn : n < 12 + len) :
    ∃ g, f.push 273 (frame.getD n 0) = .ok (g, none) ∧ g.HasTaken frame len (n + 1) := by
  have h256 := capturable_len_le hframe
  obtain ⟨_, _, hstart, _⟩ := hframe
  have ⟨hstate, hpos, hdlen, _⟩ := h
  rw [phase_of_data h12 hn] at hstate
  rw [if_neg (by omega)] at hdlen
  refine ⟨_, Fsp.push_data_store_eq _ f (hstart n (by omega) (by omega)) hstate (by omega)
    (by omega), Fsp.hasTaken_succ h (by omega) rfl rfl ?_ ?_⟩
  · rw [hpos, hdlen]
    by_cases hlast : n + 1 = 12 + len
    · rw [if_pos hlast, phase_of_tail (by omega)]
    · rw [if_neg hlast, phase_of_data (by omega) (by omega)]
  · exact hdlen.trans (if_neg (by omega)).symm

/-- A checksum character of a complete frame is stored (R149). -/
theorem Fsp.push_hasTaken_tail {n : Nat} {f : Fsp} (h : f.HasTaken frame len n) (h12 : 12 + len ≤ n)
    (hn : n < 16 + len) :
    ∃ g, f.push 273 (frame.getD n 0) = .ok (g, none) ∧ g.HasTaken frame len (n + 1) := by
  have h256 := capturable_len_le hframe
  obtain ⟨_, _, hstart, _, _, htail, _⟩ := hframe
  have ⟨hstate, hpos, hdlen, _⟩ := h
  rw [phase_of_tail h12] at hstate
  rw [if_neg (by omega)] at hdlen
  refine ⟨_, Fsp.push_tail_store 273 _ f (hstart n (by omega) (by omega)) (htail n hn h12) hstate
    (by omega) (by omega), Fsp.hasTaken_succ h (by omega) rfl rfl ?_ ?_⟩
  · rw [Fsp.stored_state, hstate, phase_of_tail (by omega)]
  · rw [Fsp.stored_dlen, hdlen, if_neg (by omega)]

/-- Every byte of a complete frame between its first and its last is stored. -/
theorem Fsp.push_hasTaken {n : Nat} {f : Fsp} (h : f.HasTaken frame len n) (h1 : 1 ≤ n)
    (hn : n < 16 + len) :
    ∃ g, f.push 273 (frame.getD n 0) = .ok (g, none) ∧ g.HasTaken frame len (n + 1) := by
  obtain hheader | hdata | htail : n < 12 ∨ (12 ≤ n ∧ n < 12 + len) ∨ 12 + len ≤ n := by omega
  · exact Fsp.push_hasTaken_header hframe h h1 hheader
  · exact Fsp.push_hasTaken_data hframe h hdata.1 hdata.2
  · exact Fsp.push_hasTaken_tail hframe h htail hn

/-- The last byte of a complete frame hands the frame over (R148). -/
theorem Fsp.push_last {f : Fsp} (h : f.HasTaken frame len (16 + len)) :
    f.push 273 (frame.getD (16 + len) 0) = .ok ((f.stored endMarker).clear, some frame) := by
  have h256 := capturable_len_le hframe
  have hspan := capturable_take_append hframe
  obtain ⟨hlength, _, _, _, _, _, hlast⟩ := hframe
  have ⟨hstate, hpos, _, _⟩ := h
  rw [phase_of_tail (by omega)] at hstate
  rw [hlast] at hspan
  rw [hlast, Fsp.push_tail_end 273 f hstate (by omega), Fsp.captured_stored endMarker f (by omega),
    Fsp.captured_of_hasTaken h (by omega), hspan]

/-- The first bytes of a complete frame, from any state: nothing is handed over. -/
theorem fspFeed_take (s : State) {n : Nat} (h1 : 1 ≤ n) (hn : n ≤ 16 + len) :
    ∃ f : Fsp, fspFeed (frame.take n) s =
      some ({ s with fsp := f, respM := some (.ok (captureResult none)) }, []) ∧
      f.HasTaken frame len n := by
  have ⟨hlength, hstart, _⟩ := hframe
  have htake (k : Nat) (hk : k < 17 + len) :
      frame.take (k + 1) = frame.take k ++ [frame.getD k 0] := by
    rw [List.getD_eq_getElem _ 0 (by omega), List.take_append_getElem]
  induction n, h1 using Nat.le_induction with
  | base =>
    refine ⟨s.fsp.restart, ?_, Fsp.hasTaken_restart len hstart s.fsp⟩
    rw [htake 0 (by omega), List.take_zero, List.nil_append, hstart]
    exact fspFeed_singleton (Fsp.push_start 273 s.fsp)
  | succ n h1 ih =>
    obtain ⟨f, hfeed, htaken⟩ := ih (by omega)
    obtain ⟨g, hpush, hg⟩ := Fsp.push_hasTaken hframe htaken h1 (by omega)
    refine ⟨g, ?_, hg⟩
    rw [htake n (by omega), fspFeed_append _ hfeed, fspFeed_singleton hpush]
    rfl

/-- A complete frame, from any state: it is handed over whole, and the parser is left cleared. -/
theorem fspFeed_frame (s : State) : ∃ f : Fsp, fspFeed frame s =
    some ({ s with fsp := f.clear, respM := some (.ok (captureResult (some frame))) },
      [frame]) := by
  obtain ⟨f, hfeed, htaken⟩ := fspFeed_take hframe s (n := 16 + len) (by omega) (by omega)
  refine ⟨f.stored endMarker, ?_⟩
  conv_lhs => rw [← capturable_take_append hframe]
  rw [fspFeed_append _ hfeed, fspFeed_singleton (Fsp.push_last hframe htaken)]
  rfl

end Frame

/-- Settles O44, by induction on the number of bytes fed, with the parser's record after each. -/
theorem streamedFrameIsHandedOverWhole : Obligations.StreamedFrameIsHandedOverWhole := by
  unfold Obligations.StreamedFrameIsHandedOverWhole
  intro s len frame hframe
  refine ⟨?_, ?_⟩
  · intro n hn
    have ⟨hlength, _⟩ := hframe
    by_cases h0 : n = 0
    · exact ⟨s, by rw [h0]; rfl⟩
    · obtain ⟨f, hfeed, _⟩ := fspFeed_take hframe s (n := n) (by omega) (by omega)
      exact ⟨_, hfeed⟩
  · obtain ⟨f, hfeed⟩ := fspFeed_frame hframe s
    exact ⟨_, hfeed, rfl, rfl, rfl, rfl⟩

/-- Settles O45: under the invariant the bytes before complete, and from any state the frame does.
-/
theorem anyPrefixThenAFrameResynchronises : Obligations.AnyPrefixThenAFrameResynchronises := by
  unfold Obligations.AnyPrefixThenAFrameResynchronises
  intro s before len frame hs hframe
  obtain ⟨u, frames, hbefore⟩ := fspFeed_completes before hs
  obtain ⟨f, hfeed⟩ := fspFeed_frame hframe u
  exact ⟨u, _, frames, hbefore, by rw [fspFeed_append frame hbefore, hfeed, Option.map_some]⟩

end Sys2Proof.Machine
end

section
/-!
PROOFS. Laws of the sample ring over its stored entries (spec/43_sample_ring.md): the most recent
600, their order, the offset law, and the reject-when-full variant.
-/

namespace Sys2Proof.Machine

/-! ## The stored entries (R34) -/

/-- Settles O56, by the entries after any sequence of puts. -/
theorem ringHoldsTheMostRecentEntries : Obligations.RingHoldsTheMostRecentEntries := by
  unfold Obligations.RingHoldsTheMostRecentEntries
  intro s es h
  obtain ⟨t, ht, _, hentries⟩ := performAll_srbPut es h
  refine ⟨t, ht, hentries, ?_⟩
  rw [← Srb.entries_length, hentries, List.length_take, List.length_append, List.length_reverse,
    Srb.entries_length, Nat.min_comm]

/-- A put that is not before the newest entry keeps the entries in order (R34 (d), R256). -/
theorem Srb.ordered_stored {e : SampleEntry} {r : Srb} (hhead : r.head.toNat < 600)
    (h : r.Ordered) (he : r.InOrder e) : (r.stored e).Ordered := by
  intro k hk
  rw [Srb.stored_count] at hk
  rw [Srb.newest_stored_succ e r k (by omega)]
  cases k with
  | zero =>
    rw [Srb.newest_stored_zero e r hhead]
    exact he.resolve_left (by omega)
  | succ k =>
    rw [Srb.newest_stored_succ e r k (by omega)]
    exact h k (by omega)

/-- Settles O57: a put that completes is a store. -/
theorem monotoneProducerKeepsTheRingOrdered : Obligations.MonotoneProducerKeepsTheRingOrdered := by
  unfold Obligations.MonotoneProducerKeepsTheRingOrdered
  intro e s t _ hordered he h
  obtain ⟨hhead, rfl⟩ := exec_srbPut_cases h
  exact Srb.ordered_stored hhead hordered he

/-! ## The offset law (section 3) -/

/-- In an ordered ring an older entry is not later. -/
theorem Srb.timestamp_le_of_ordered {r : Srb} (h : r.Ordered) {j k : Nat} (hjk : j ≤ k)
    (hk : k < r.count.toNat) :
    (r.newest k).timestamp.toNat ≤ (r.newest j).timestamp.toNat := by
  induction k, hjk using Nat.le_induction with
  | base => exact Nat.le_refl _
  | succ k _ ih => exact (h k (by omega)).trans (ih (by omega))

/-- In an ordered ring the scan for the time of a stored entry finds the newest entry of that time.
-/
theorem Srb.exists_scan_eq {r : Srb} (h : r.Ordered) {k : Nat} (hk : k < r.count.toNat) :
    ∃ j ≤ k, (r.newest j).timestamp = (r.newest k).timestamp ∧
      (∀ l < j, (r.newest k).timestamp.toNat < (r.newest l).timestamp.toNat) ∧
      r.scan (r.newest k).timestamp 0 r.count.toNat = some (r.newest j) := by
  have hex : ∃ j, (r.newest j).timestamp.toNat ≤ (r.newest k).timestamp.toNat :=
    ⟨k, Nat.le_refl _⟩
  have hjk : Nat.find hex ≤ k := Nat.find_min' hex (Nat.le_refl _)
  have hnewer : ∀ l < Nat.find hex,
      (r.newest k).timestamp.toNat < (r.newest l).timestamp.toNat :=
    fun l hl => Nat.not_le.mp (Nat.find_min hex hl)
  refine ⟨Nat.find hex, hjk, ?_, hnewer, ?_⟩
  · exact BitVec.eq_of_toNat_eq
      ((Nat.find_spec hex).antisymm (Srb.timestamp_le_of_ordered h hjk hk))
  · exact Srb.scan_eq_some r _ (Nat.zero_le _) (by omega) (Nat.find_spec hex)
      fun l _ hl => hnewer l hl

/-- Settles O53: the target of the query is the entry's time, and the scan finds the newest entry of
that time. -/
theorem offsetLaw : Obligations.OffsetLaw := by
  unfold Obligations.OffsetLaw
  intro s k now intervalMs _ hordered hk hlt hrange
  obtain ⟨j, hjk, htime, hnewer, hscan⟩ := Srb.exists_scan_eq hordered hk
  refine ⟨j, hjk, htime, hnewer, ?_⟩
  have hnow := now.isLt
  have hoffset : (now - (s.srb.newest k).timestamp).toNat =
      now.toNat - (s.srb.newest k).timestamp.toNat := by
    rw [target_toNat]
    omega
  have htarget : now - (now - (s.srb.newest k).timestamp) = (s.srb.newest k).timestamp := by
    apply BitVec.eq_of_toNat_eq
    rw [target_toNat, hoffset]
    omega
  rw [← htarget] at hscan
  rw [exec_srbByofs, Srb.byOffset_of_scan_some (by omega) (by omega) hscan]
  rfl

/-! ## The reject-when-full variant (R186, R187) -/

/-- What a query of the fixed configuration answers, and why. -/
theorem Srb.byOffset_cases (offsetMs now intervalMs : BitVec 32) (r : Srb) :
    r.byOffset .overwriteOldest offsetMs now intervalMs = .error .outOfRange ∨
    (offsetMs.toNat ≠ 0 ∧ offsetMs.toNat ≤ 600 * intervalMs.toNat ∧
      ((r.scan (now - offsetMs) 0 r.count.toNat = none ∧
          r.byOffset .overwriteOldest offsetMs now intervalMs = .error .empty) ∨
        ∃ e, r.scan (now - offsetMs) 0 r.count.toNat = some e ∧
          r.byOffset .overwriteOldest offsetMs now intervalMs = .ok e)) := by
  by_cases hrange : offsetMs.toNat = 0 ∨ 600 * intervalMs.toNat < offsetMs.toNat
  · exact .inl (Srb.byOffset_out_of_range _ _ _ _ r hrange)
  obtain ⟨h0, h1⟩ := not_or.mp hrange
  refine .inr ⟨h0, Nat.not_lt.mp h1, ?_⟩
  cases hscan : r.scan (now - offsetMs) 0 r.count.toNat with
  | none => exact .inl ⟨rfl, Srb.byOffset_of_scan_none h0 (Nat.not_lt.mp h1) hscan⟩
  | some e => exact .inr ⟨e, rfl, Srb.byOffset_of_scan_some h0 (Nat.not_lt.mp h1) hscan⟩

/-- Where the fixed configuration answers EMPTY, a policy answers as for an exhausted scan. -/
theorem Srb.byOffset_of_empty {offsetMs now intervalMs : BitVec 32} {r : Srb}
    (h : r.byOffset .overwriteOldest offsetMs now intervalMs = .error .empty)
    (policy : SrbPolicy) : r.byOffset policy offsetMs now intervalMs = r.exhausted policy := by
  obtain h' | ⟨h0, h1, ⟨hscan, _⟩ | ⟨e, _, h'⟩⟩ := Srb.byOffset_cases offsetMs now intervalMs r
  · cases h.symm.trans h'
  · simp only [Srb.byOffset_in_range policy _ _ _ r h0 h1, hscan]
  · cases h.symm.trans h'

/-- Where the fixed configuration answers an entry, every policy does. -/
theorem Srb.byOffset_of_ok {offsetMs now intervalMs : BitVec 32} {r : Srb} {e : SampleEntry}
    (h : r.byOffset .overwriteOldest offsetMs now intervalMs = .ok e)
    (policy : SrbPolicy) : r.byOffset policy offsetMs now intervalMs = .ok e := by
  obtain h' | ⟨h0, h1, ⟨_, h'⟩ | ⟨x, hscan, h'⟩⟩ := Srb.byOffset_cases offsetMs now intervalMs r
  · cases h.symm.trans h'
  · cases h.symm.trans h'
  · cases h.symm.trans h'
    simp only [Srb.byOffset_in_range policy _ _ _ r h0 h1, hscan]

/-- The oldest stored entry (R34, R187). -/
theorem Srb.newest_oldest {r : Srb} (h : r.count.toNat ≤ 600) (h0 : r.count.toNat ≠ 0) :
    r.newest (r.count.toNat - 1) = r.entry ((r.head.toNat + 600 - r.count.toNat) % 600) := by
  rw [Srb.newest_eq_entry r (by omega)]
  congr 2
  omega

/-- Settles O58: the variant differs from the fixed configuration in a put to a full ring and in
what an exhausted scan answers. -/
theorem rejectWhenFullVariant : Obligations.RejectWhenFullVariant := by
  unfold Obligations.RejectWhenFullVariant
  refine ⟨?_, ?_, fun x _ _ _ _ _ h => Srb.byOffset_of_ok h (.rejectWhenFull x)⟩
  · intro x e r
    refine ⟨fun h => ?_, fun h => ?_⟩
    · simp only [Srb.put, Srb.isFull, h, decide_true, if_true]
    · simp only [Srb.put, Srb.isFull, h, decide_false, Bool.false_eq_true, if_false]
  · intro offsetMs now intervalMs r hcount h
    refine ⟨Srb.byOffset_of_empty h _, fun h0 => ?_, fun h0 => ?_⟩
    · rw [Srb.byOffset_of_empty h]
      simp only [Srb.exhausted, Srb.isEmpty, h0, decide_true, if_true]
    · rw [Srb.byOffset_of_empty h, ← Srb.newest_oldest hcount h0]
      simp only [Srb.exhausted, Srb.isEmpty, h0, decide_false, Bool.false_eq_true, if_false]

end Sys2Proof.Machine
end

section
/-!
PROOFS. The wire frame (spec/30_encoding.md Part B): the frame built from fields that fit is a
complete frame, which the parser hands over whole, and its parts decode back.
-/

namespace Sys2Proof.Machine

/-! ## The bytes of the fields (R80 to R86) -/

theorem decimal_length (v w : Nat) : (decimal v w).length = w := by
  induction w with
  | zero => rfl
  | succ w ih => rw [decimal, List.length_cons, ih]

/-- Every character of a decimal field is a digit (R11). -/
theorem digit_of_mem_decimal {v w : Nat} {c : Byte} (hc : c ∈ decimal v w) : DecimalDigit c := by
  induction w with
  | zero => cases hc
  | succ w ih =>
    obtain rfl | hc := List.mem_cons.mp hc
    · have hdigit : v / 10 ^ w % 10 < 10 := Nat.mod_lt _ (by decide)
      rw [DecimalDigit, BitVec.toNat_ofNat]
      omega
    · exact ih hc

/-- Neither delimiter (R81). -/
abbrev PlainByte (c : Byte) : Prop := c ≠ startMarker ∧ c ≠ endMarker

theorem plain_of_mem_decimal {v w : Nat} {c : Byte} (hc : c ∈ decimal v w) : PlainByte c := by
  obtain ⟨hlow, _⟩ := digit_of_mem_decimal hc
  constructor
  · rintro rfl
    exact absurd hlow (by decide)
  · rintro rfl
    exact absurd hlow (by decide)

theorem plain_of_mem_hexEncode {d : Span} {c : Byte} (hc : c ∈ hexEncode d) : PlainByte c := by
  obtain ⟨n, rfl⟩ := digit_of_mem_hexEncode hc
  exact ⟨hexdigit_ne_of_hexval_none rfl n, hexdigit_ne_of_hexval_none rfl n⟩

theorem plain_of_all {d : Span} (h : d.all notDelimiter = true) {c : Byte} (hc : c ∈ d) :
    PlainByte c := by
  have := List.all_eq_true.mp h c hc
  simpa [notDelimiter] using this

theorem FrameFields.fits_iff {x : FrameFields} : x.fits = true ↔
    x.sender.length = 3 ∧ x.sender.all notDelimiter = true ∧ x.receiver.length = 3 ∧
      x.receiver.all notDelimiter = true ∧ x.id ≤ 99 ∧ x.payload.length ≤ 128 := by
  simp [FrameFields.fits, and_assoc]

/-! ## The layout of a frame (R80) -/

/-- The 11 header bytes of a frame after the start marker. -/
def headerField (x : FrameFields) : Span :=
  x.sender ++ x.receiver ++ decimal (2 * x.payload.length) 3 ++ decimal x.id 2

theorem coveredSpan_eq (x : FrameFields) :
    coveredSpan x = headerField x ++ hexEncode x.payload := rfl

theorem checksumField_length (v : BitVec 16) : (checksumField v).length = 4 := hexEncode_length _

theorem getD_mem {d : Span} {i : Nat} (h : i < d.length) : d.getD i 0 ∈ d := by
  rw [List.getD_eq_getElem d 0 h]
  exact List.getElem_mem h

/-- The part of a span between two others. -/
theorem drop_take_append {a b : Span} (c : Span) {n m : Nat} (ha : a.length = n)
    (hb : b.length = m) : ((a ++ b ++ c).drop n).take m = b := by
  rw [List.append_assoc, List.drop_left' ha, List.take_left' hb]

/-- A start marker, 11 header bytes, the payload, 4 checksum characters and an end marker are a
complete frame, if no delimiter stands between the markers but an end marker in the payload. -/
theorem capturable_of_layout {header payload tail : Span} (hheader : header.length = 11)
    (htail : tail.length = 4) (hplain : ∀ c ∈ header, PlainByte c)
    (hpayload : ∀ c ∈ payload, c ≠ startMarker) (hplain' : ∀ c ∈ tail, PlainByte c)
    (hlen : lenField (header.getD 6 0) (header.getD 7 0) (header.getD 8 0) = some payload.length) :
    Capturable payload.length (startMarker :: (header ++ payload ++ tail ++ [endMarker])) := by
  have hhead {i : Nat} (hi : i < 11) :
      (header ++ payload ++ tail ++ [endMarker]).getD i 0 = header.getD i 0 := by
    rw [List.append_assoc, List.append_assoc, List.getD_append _ _ _ _ (by omega)]
  have hcheck {i : Nat} (hi : i < 4) :
      (header ++ payload ++ tail ++ [endMarker]).getD (11 + payload.length + i) 0 =
        tail.getD i 0 := by
    rw [List.append_assoc, List.getD_append_right _ _ _ _ (by simp; omega), List.length_append,
      hheader, Nat.add_sub_cancel_left, List.getD_append _ _ _ _ (by omega)]
  have hlength : (header ++ payload ++ tail ++ [endMarker]).length = 16 + payload.length := by
    simp only [List.length_append, List.length_singleton]
    omega
  have hstart : ∀ c ∈ header ++ payload ++ tail ++ [endMarker], c ≠ startMarker := by
    simp only [List.mem_append, List.mem_singleton]
    rintro c (((hc | hc) | hc) | rfl)
    · exact (hplain c hc).1
    · exact hpayload c hc
    · exact (hplain' c hc).1
    · exact startMarker_ne_endMarker.symm
  refine ⟨?_, rfl, ?_, ?_, ?_, ?_, ?_⟩
  · rw [List.length_cons, hlength]
    omega
  · intro i hi h1
    obtain ⟨i, rfl⟩ := Nat.exists_eq_add_of_le' h1
    exact hstart _ (getD_mem (by omega))
  · intro i hi h1
    obtain ⟨i, rfl⟩ := Nat.exists_eq_add_of_le' h1
    rw [List.getD_cons_succ, hhead (by omega)]
    exact (hplain _ (getD_mem (by omega))).2
  · rw [List.getD_cons_succ, List.getD_cons_succ, List.getD_cons_succ, hhead (by decide),
      hhead (by decide), hhead (by decide), hlen]
  · intro i hi h1
    obtain ⟨i, rfl⟩ := Nat.exists_eq_add_of_le h1
    rw [show 12 + payload.length + i = 11 + payload.length + i + 1 by omega, List.getD_cons_succ,
      hcheck (by omega)]
    exact (hplain' _ (getD_mem (by omega))).2
  · rw [show 16 + payload.length = 15 + payload.length + 1 by omega, List.getD_cons_succ,
      List.getD_append_right _ _ _ _ (by simp; omega)]
    simp [hheader, htail, show 15 + payload.length - (11 + (payload.length + 4)) = 0 by omega]

theorem headerField_length {x : FrameFields} (h : x.fits = true) : (headerField x).length = 11 := by
  obtain ⟨hsender, _, hreceiver, _⟩ := FrameFields.fits_iff.mp h
  simp only [headerField, List.length_append, decimal_length, hsender, hreceiver]

theorem plain_of_mem_headerField {x : FrameFields} (h : x.fits = true) {c : Byte}
    (hc : c ∈ headerField x) : PlainByte c := by
  obtain ⟨_, hsender, _, hreceiver, _⟩ := FrameFields.fits_iff.mp h
  simp only [headerField, List.mem_append] at hc
  obtain ((hc | hc) | hc) | hc := hc
  · exact plain_of_all hsender hc
  · exact plain_of_all hreceiver hc
  · exact plain_of_mem_decimal hc
  · exact plain_of_mem_decimal hc

/-- The length digits of a header stand at 6, 7 and 8 and decode to the length of the payload's
text. -/
theorem lenField_headerField {x : FrameFields} (h : x.fits = true) :
    lenField ((headerField x).getD 6 0) ((headerField x).getD 7 0) ((headerField x).getD 8 0) =
      some (2 * x.payload.length) := by
  obtain ⟨hsender, _, hreceiver, _, _, hpayload⟩ := FrameFields.fits_iff.mp h
  obtain ⟨d0, d1, d2, hdigits, hlen⟩ := lenField_decimal (len := 2 * x.payload.length) (by omega)
  have haddr : (x.sender ++ x.receiver).length = 6 := by rw [List.length_append, hsender, hreceiver]
  have hget (i : Nat) : (headerField x).getD (6 + i) 0 =
      ([d0, d1, d2] ++ decimal x.id 2).getD i 0 := by
    rw [headerField, hdigits, List.append_assoc, List.getD_append_right _ _ _ _ (by omega), haddr,
      Nat.add_sub_cancel_left]
  have h0 : (headerField x).getD 6 0 = d0 := hget 0
  have h1 : (headerField x).getD 7 0 = d1 := hget 1
  have h2 : (headerField x).getD 8 0 = d2 := hget 2
  rw [h0, h1, h2, hlen]

/-- A frame built from fields that fit is a complete frame. -/
theorem capturable_wireFrame {x : FrameFields} (h : x.fits = true) :
    Capturable (2 * x.payload.length) (wireFrame x) := by
  have hlen := lenField_headerField h
  rw [← hexEncode_length] at hlen ⊢
  exact capturable_of_layout (headerField_length h)
    (checksumField_length (crc16 (coveredSpan x))) (fun _ => plain_of_mem_headerField h)
    (fun _ hc => (plain_of_mem_hexEncode hc).1) (fun _ => plain_of_mem_hexEncode) hlen

/-- The parts of a built frame. -/
theorem wireFrame_parts {x : FrameFields} (h : x.fits = true) :
    ((wireFrame x).drop 1).take (11 + 2 * x.payload.length) = coveredSpan x ∧
    ((wireFrame x).drop 12).take (2 * x.payload.length) = hexEncode x.payload ∧
    ((wireFrame x).drop (12 + 2 * x.payload.length)).take 4 =
      checksumField (crc16 (coveredSpan x)) := by
  have hheader := headerField_length h
  have htext := hexEncode_length x.payload
  have hcovered : (coveredSpan x).length = 11 + 2 * x.payload.length := by
    rw [coveredSpan_eq, List.length_append, hheader, htext]
  refine ⟨?_, ?_, ?_⟩
  · rw [wireFrame, ← List.singleton_append, List.append_assoc, ← List.append_assoc]
    exact drop_take_append _ rfl hcovered
  · have hframe : wireFrame x = (startMarker :: headerField x) ++ hexEncode x.payload ++
        (checksumField (crc16 (coveredSpan x)) ++ [endMarker]) := by
      simp only [wireFrame, coveredSpan_eq, List.cons_append, List.append_assoc]
    rw [hframe]
    exact drop_take_append _ (by rw [List.length_cons, hheader]) htext
  · rw [wireFrame, ← List.cons_append, ← List.cons_append]
    exact drop_take_append _ (by rw [List.length_cons, hcovered]; omega) (checksumField_length _)

theorem exec_hexDec_hexEncode (d : Span) (s : State) :
    exec (.hexDec (hexEncode d)) s = .next { s with respM := some (.ok (.span d)) } := by
  rw [exec_hexDec, hexDecode_hexEncode]
  rfl

/-- Settles O60: the built frame is a complete frame, and its parts are the covered span and the
texts of the payload and of the two bytes of the checksum. -/
theorem builtFramesParseBack : Obligations.BuiltFramesParseBack := by
  unfold Obligations.BuiltFramesParseBack
  intro x s h
  have hframe := capturable_wireFrame h
  obtain ⟨hcovered, hpayload, hchecksum⟩ := wireFrame_parts h
  obtain ⟨f, hfeed⟩ := fspFeed_frame hframe s
  rw [hcovered, hpayload, hchecksum]
  refine ⟨⟨_, hfeed, rfl⟩, hframe.1, rfl, exec_hexDec_hexEncode _ s, _, _,
    exec_hexDec_hexEncode _ s, ?_⟩
  rw [bytes_append]
  exact exec_crcSpan _ s

end Sys2Proof.Machine
end
